-- ==== Sys2Proof/Word.lean ====
section
/-! DEFINITION. The two widths of the hardware: 8-bit data (R5, R10, R41) and 16-bit addresses (R22, R40). -/

namespace Sys2Proof

/-- A data byte: a register, a memory location, an instruction byte (`00_scope.md` R4: `REG_W`, `BYTE_W`). -/
abbrev Byte := BitVec 8

/-- An address, and the program counter (`00_scope.md` R4: `PC_W`, `ADDR_W`); its addition wraps modulo 65536. -/
abbrev Word := BitVec 16

end Sys2Proof
end

