-- ==== Sys2Proof/Config.lean ====
section
/-! DEFINITION. The parameters of `00_scope.md` R4 that are plain values. The spec leaves no value open, so there is no free
value here (INVENTORY.md, "What the manual leaves open"). -/

namespace Sys2Proof.Config

/-- `MEM_SIZE` (R4, R41): 65536 locations, 0x0000 to 0xFFFF. -/
abbrev memSize : Nat := 65536

/-- What a location that the memory list does not name reads as: the power-on content 0x00 (R41, R230). -/
abbrev unlistedByte : Byte := 0x00#8

/-- `LOAD_BASE` (R4, R236). -/
abbrev loadBase : Word := 0x8000#16

/-- The longest program the loader accepts, `0x10000 - 0x8000` bytes (R237). -/
abbrev maxProgram : Nat := 32768

/-- `RESET_VECTOR`, low byte (R4, R45, R48). -/
abbrev resetVectorLo : Word := 0xFFFC#16

/-- `RESET_VECTOR`, high byte (R4, R45, R48). -/
abbrev resetVectorHi : Word := 0xFFFD#16

end Sys2Proof.Config
end

