-- ==== Sys2Proof/Syntax.lean ====
section
/-! DEFINITION. The instructions: one constructor per row of `spec/opcode_table.json` (`30_encoding.md` R66), with the
operand its encoding carries (R61, R63), and the descriptor types of the instruction table (`10_state.md` R31). -/

namespace Sys2Proof

/-- The ten operation families (`00_scope.md` R1, R8). -/
inductive Family where
  | brk | lda | sta | adc | and | asl | tax | inx | sei | sed
  deriving DecidableEq, Repr

/-- The ten addressing modes (`41_addressing_modes.md` R101 to R110). No opcode uses `relative` (R110). -/
inductive Mode where
  | immediate | zeroPage | zeroPageX | absolute | absoluteX | absoluteY | indirectX | indirectY | implied | relative
  deriving DecidableEq, Repr

/-- One entry of the instruction table (R31): the family, the mode, and whether the operand is the accumulator (only
opcode 0x0A). The operand length is a function of the mode (`Mode.len`, R62). -/
structure Descriptor where
  family : Family
  mode : Mode
  accForm : Bool := false
  deriving DecidableEq, Repr

/-- The 41 instructions. A byte operand is an immediate value or a zero-page address; a word operand is the absolute address
or base `{b1, b0}` (R63). -/
inductive Instr where
  /-- `LDA #$nn`, opcode 0xA9, Immediate (`42_load_store.md` R121). -/
  | ldaImm (imm : Byte)
  /-- `LDA $nn`, opcode 0xA5, ZeroPage (`42_load_store.md` R122). -/
  | ldaZp (zp : Byte)
  /-- `LDA $nn,X`, opcode 0xB5, ZeroPageX (`42_load_store.md` R123). -/
  | ldaZpx (zp : Byte)
  /-- `LDA $hhll`, opcode 0xAD, Absolute (`42_load_store.md` R124). -/
  | ldaAbs (addr : Word)
  /-- `LDA $hhll,X`, opcode 0xBD, AbsoluteX (`42_load_store.md` R125). -/
  | ldaAbsX (base : Word)
  /-- `LDA $hhll,Y`, opcode 0xB9, AbsoluteY (`42_load_store.md` R126). -/
  | ldaAbsY (base : Word)
  /-- `LDA ($nn,X)`, opcode 0xA1, IndirectX (`42_load_store.md` R127). -/
  | ldaIndX (zp : Byte)
  /-- `LDA ($nn),Y`, opcode 0xB1, IndirectY (`42_load_store.md` R128). -/
  | ldaIndY (zp : Byte)
  /-- `STA $nn`, opcode 0x85, ZeroPage (`42_load_store.md` R131). -/
  | staZp (zp : Byte)
  /-- `STA $nn,X`, opcode 0x95, ZeroPageX (`42_load_store.md` R132). -/
  | staZpx (zp : Byte)
  /-- `STA $hhll`, opcode 0x8D, Absolute (`42_load_store.md` R133). -/
  | staAbs (addr : Word)
  /-- `STA $hhll,X`, opcode 0x9D, AbsoluteX (`42_load_store.md` R134). -/
  | staAbsX (base : Word)
  /-- `STA $hhll,Y`, opcode 0x99, AbsoluteY (`42_load_store.md` R135). -/
  | staAbsY (base : Word)
  /-- `STA ($nn,X)`, opcode 0x81, IndirectX (`42_load_store.md` R136). -/
  | staIndX (zp : Byte)
  /-- `STA ($nn),Y`, opcode 0x91, IndirectY (`42_load_store.md` R137). -/
  | staIndY (zp : Byte)
  /-- `ADC #$nn`, opcode 0x69, Immediate (`43_add_and.md` R141). -/
  | adcImm (imm : Byte)
  /-- `ADC $nn`, opcode 0x65, ZeroPage (`43_add_and.md` R142). -/
  | adcZp (zp : Byte)
  /-- `ADC $nn,X`, opcode 0x75, ZeroPageX (`43_add_and.md` R143). -/
  | adcZpx (zp : Byte)
  /-- `ADC $hhll`, opcode 0x6D, Absolute (`43_add_and.md` R144). -/
  | adcAbs (addr : Word)
  /-- `ADC $hhll,X`, opcode 0x7D, AbsoluteX (`43_add_and.md` R145). -/
  | adcAbsX (base : Word)
  /-- `ADC $hhll,Y`, opcode 0x79, AbsoluteY (`43_add_and.md` R146). -/
  | adcAbsY (base : Word)
  /-- `ADC ($nn,X)`, opcode 0x61, IndirectX (`43_add_and.md` R147). -/
  | adcIndX (zp : Byte)
  /-- `ADC ($nn),Y`, opcode 0x71, IndirectY (`43_add_and.md` R148). -/
  | adcIndY (zp : Byte)
  /-- `AND #$nn`, opcode 0x29, Immediate (`43_add_and.md` R151). -/
  | andImm (imm : Byte)
  /-- `AND $nn`, opcode 0x25, ZeroPage (`43_add_and.md` R152). -/
  | andZp (zp : Byte)
  /-- `AND $nn,X`, opcode 0x35, ZeroPageX (`43_add_and.md` R153). -/
  | andZpx (zp : Byte)
  /-- `AND $hhll`, opcode 0x2D, Absolute (`43_add_and.md` R154). -/
  | andAbs (addr : Word)
  /-- `AND $hhll,X`, opcode 0x3D, AbsoluteX (`43_add_and.md` R155). -/
  | andAbsX (base : Word)
  /-- `AND $hhll,Y`, opcode 0x39, AbsoluteY (`43_add_and.md` R156). -/
  | andAbsY (base : Word)
  /-- `AND ($nn,X)`, opcode 0x21, IndirectX (`43_add_and.md` R157). -/
  | andIndX (zp : Byte)
  /-- `AND ($nn),Y`, opcode 0x31, IndirectY (`43_add_and.md` R158). -/
  | andIndY (zp : Byte)
  /-- `ASL A`, opcode 0x0A, Implied (the operand is A) (`44_shift.md` R171). -/
  | aslAcc
  /-- `ASL $nn`, opcode 0x06, ZeroPage (`44_shift.md` R172). -/
  | aslZp (zp : Byte)
  /-- `ASL $nn,X`, opcode 0x16, ZeroPageX (`44_shift.md` R173). -/
  | aslZpx (zp : Byte)
  /-- `ASL $hhll`, opcode 0x0E, Absolute (`44_shift.md` R174). -/
  | aslAbs (addr : Word)
  /-- `ASL $hhll,X`, opcode 0x1E, AbsoluteX (`44_shift.md` R175). -/
  | aslAbsX (base : Word)
  /-- `TAX`, opcode 0xAA, Implied (`45_transfer_increment.md` R180). -/
  | tax
  /-- `INX`, opcode 0xE8, Implied (`45_transfer_increment.md` R181). -/
  | inx
  /-- `SEI`, opcode 0x78, Implied (`46_flag_set.md` R185). -/
  | sei
  /-- `SED`, opcode 0xF8, Implied (`46_flag_set.md` R186). -/
  | sed
  /-- `BRK`, opcode 0x00, Implied (`47_halt.md` R190). -/
  | brk
  deriving DecidableEq, Repr

/-- The table entry an instruction is an instance of (R66). -/
def Instr.descriptor : Instr → Descriptor
  | .ldaImm _ => ⟨.lda, .immediate, false⟩
  | .ldaZp _ => ⟨.lda, .zeroPage, false⟩
  | .ldaZpx _ => ⟨.lda, .zeroPageX, false⟩
  | .ldaAbs _ => ⟨.lda, .absolute, false⟩
  | .ldaAbsX _ => ⟨.lda, .absoluteX, false⟩
  | .ldaAbsY _ => ⟨.lda, .absoluteY, false⟩
  | .ldaIndX _ => ⟨.lda, .indirectX, false⟩
  | .ldaIndY _ => ⟨.lda, .indirectY, false⟩
  | .staZp _ => ⟨.sta, .zeroPage, false⟩
  | .staZpx _ => ⟨.sta, .zeroPageX, false⟩
  | .staAbs _ => ⟨.sta, .absolute, false⟩
  | .staAbsX _ => ⟨.sta, .absoluteX, false⟩
  | .staAbsY _ => ⟨.sta, .absoluteY, false⟩
  | .staIndX _ => ⟨.sta, .indirectX, false⟩
  | .staIndY _ => ⟨.sta, .indirectY, false⟩
  | .adcImm _ => ⟨.adc, .immediate, false⟩
  | .adcZp _ => ⟨.adc, .zeroPage, false⟩
  | .adcZpx _ => ⟨.adc, .zeroPageX, false⟩
  | .adcAbs _ => ⟨.adc, .absolute, false⟩
  | .adcAbsX _ => ⟨.adc, .absoluteX, false⟩
  | .adcAbsY _ => ⟨.adc, .absoluteY, false⟩
  | .adcIndX _ => ⟨.adc, .indirectX, false⟩
  | .adcIndY _ => ⟨.adc, .indirectY, false⟩
  | .andImm _ => ⟨.and, .immediate, false⟩
  | .andZp _ => ⟨.and, .zeroPage, false⟩
  | .andZpx _ => ⟨.and, .zeroPageX, false⟩
  | .andAbs _ => ⟨.and, .absolute, false⟩
  | .andAbsX _ => ⟨.and, .absoluteX, false⟩
  | .andAbsY _ => ⟨.and, .absoluteY, false⟩
  | .andIndX _ => ⟨.and, .indirectX, false⟩
  | .andIndY _ => ⟨.and, .indirectY, false⟩
  | .aslAcc => ⟨.asl, .implied, true⟩
  | .aslZp _ => ⟨.asl, .zeroPage, false⟩
  | .aslZpx _ => ⟨.asl, .zeroPageX, false⟩
  | .aslAbs _ => ⟨.asl, .absolute, false⟩
  | .aslAbsX _ => ⟨.asl, .absoluteX, false⟩
  | .tax => ⟨.tax, .implied, false⟩
  | .inx => ⟨.inx, .implied, false⟩
  | .sei => ⟨.sei, .implied, false⟩
  | .sed => ⟨.sed, .implied, false⟩
  | .brk => ⟨.brk, .implied, false⟩

/-- The family of an instruction. -/
def Instr.family (i : Instr) : Family := i.descriptor.family

/-- The addressing mode of an instruction. -/
def Instr.mode (i : Instr) : Mode := i.descriptor.mode

end Sys2Proof
end

