-- ==== Sys2Proof/WellFormed.lean ====
section
/-! DEFINITION. What makes a table entry, an opcode table and an instruction well formed (`30_encoding.md` R66, R69, R70;
`41_addressing_modes.md` R111). Operand fields are exactly as wide as their encodings, so no operand value is ill formed. -/

namespace Sys2Proof

/-- The (family, mode) pairs of R111. `relative` is in none (R110). -/
def Family.hasMode : Family → Mode → Bool
  | .lda, m => m != .implied && m != .relative
  | .adc, m => m != .implied && m != .relative
  | .and, m => m != .implied && m != .relative
  | .sta, m => m != .immediate && m != .implied && m != .relative
  | .asl, m => m == .implied || m == .zeroPage || m == .zeroPageX || m == .absolute || m == .absoluteX
  | .tax, m => m == .implied
  | .inx, m => m == .implied
  | .sei, m => m == .implied
  | .sed, m => m == .implied
  | .brk, m => m == .implied

/-- An entry names a pair of R111, and is flagged as accumulator form exactly when it is ASL with the Implied mode
(`10_state.md` R31, `41_addressing_modes.md` R109). -/
def Descriptor.wellFormed (d : Descriptor) : Bool :=
  d.family.hasMode d.mode && d.accForm == (d.family == .asl && d.mode == .implied)

/-- Whether a list of opcode bytes repeats one. -/
def hasRepeat : List Byte → Bool
  | [] => false
  | op :: ops => ops.contains op || hasRepeat ops

/-- An opcode table is well formed when no opcode byte stands twice and every entry is well formed (R66, R69, R70). -/
def wellFormedTable (table : List (Byte × Descriptor)) : Bool :=
  !hasRepeat (table.map (·.1)) && table.all fun row => row.2.wellFormed

/-- An instruction is well formed when the entry it is an instance of is. -/
def Instr.wellFormed (i : Instr) : Bool := i.descriptor.wellFormed

end Sys2Proof
end

