-- ==== Sys2Proof/Decode.lean ====
section
/-! DEFINITION. The decoder (`10_state.md` R31, `30_encoding.md` R60 to R70), total on any bytes and rejecting by name, and
the encoder written from the same table. The opcode byte is decoded whole (R64). -/

namespace Sys2Proof

/-- Operand bytes of a mode (R62). -/
def Mode.len : Mode → Nat
  | .immediate => 1
  | .zeroPage => 1
  | .zeroPageX => 1
  | .absolute => 2
  | .absoluteX => 2
  | .absoluteY => 2
  | .indirectX => 1
  | .indirectY => 1
  | .implied => 0
  | .relative => 1

/-- The LDA rows of R66. -/
def opcodeRowsLda : List (Byte × Descriptor) := [
  (0xA9#8, ⟨.lda, .immediate, false⟩),
  (0xA5#8, ⟨.lda, .zeroPage, false⟩),
  (0xB5#8, ⟨.lda, .zeroPageX, false⟩),
  (0xAD#8, ⟨.lda, .absolute, false⟩),
  (0xBD#8, ⟨.lda, .absoluteX, false⟩),
  (0xB9#8, ⟨.lda, .absoluteY, false⟩),
  (0xA1#8, ⟨.lda, .indirectX, false⟩),
  (0xB1#8, ⟨.lda, .indirectY, false⟩)]

/-- The STA rows of R66. -/
def opcodeRowsSta : List (Byte × Descriptor) := [
  (0x85#8, ⟨.sta, .zeroPage, false⟩),
  (0x95#8, ⟨.sta, .zeroPageX, false⟩),
  (0x8D#8, ⟨.sta, .absolute, false⟩),
  (0x9D#8, ⟨.sta, .absoluteX, false⟩),
  (0x99#8, ⟨.sta, .absoluteY, false⟩),
  (0x81#8, ⟨.sta, .indirectX, false⟩),
  (0x91#8, ⟨.sta, .indirectY, false⟩)]

/-- The ADC rows of R66. -/
def opcodeRowsAdc : List (Byte × Descriptor) := [
  (0x69#8, ⟨.adc, .immediate, false⟩),
  (0x65#8, ⟨.adc, .zeroPage, false⟩),
  (0x75#8, ⟨.adc, .zeroPageX, false⟩),
  (0x6D#8, ⟨.adc, .absolute, false⟩),
  (0x7D#8, ⟨.adc, .absoluteX, false⟩),
  (0x79#8, ⟨.adc, .absoluteY, false⟩),
  (0x61#8, ⟨.adc, .indirectX, false⟩),
  (0x71#8, ⟨.adc, .indirectY, false⟩)]

/-- The AND rows of R66. -/
def opcodeRowsAnd : List (Byte × Descriptor) := [
  (0x29#8, ⟨.and, .immediate, false⟩),
  (0x25#8, ⟨.and, .zeroPage, false⟩),
  (0x35#8, ⟨.and, .zeroPageX, false⟩),
  (0x2D#8, ⟨.and, .absolute, false⟩),
  (0x3D#8, ⟨.and, .absoluteX, false⟩),
  (0x39#8, ⟨.and, .absoluteY, false⟩),
  (0x21#8, ⟨.and, .indirectX, false⟩),
  (0x31#8, ⟨.and, .indirectY, false⟩)]

/-- The ASL rows of R66. -/
def opcodeRowsAsl : List (Byte × Descriptor) := [
  (0x0A#8, ⟨.asl, .implied, true⟩),
  (0x06#8, ⟨.asl, .zeroPage, false⟩),
  (0x16#8, ⟨.asl, .zeroPageX, false⟩),
  (0x0E#8, ⟨.asl, .absolute, false⟩),
  (0x1E#8, ⟨.asl, .absoluteX, false⟩)]

/-- The TAX rows of R66. -/
def opcodeRowsTax : List (Byte × Descriptor) := [
  (0xAA#8, ⟨.tax, .implied, false⟩)]

/-- The INX rows of R66. -/
def opcodeRowsInx : List (Byte × Descriptor) := [
  (0xE8#8, ⟨.inx, .implied, false⟩)]

/-- The SEI rows of R66. -/
def opcodeRowsSei : List (Byte × Descriptor) := [
  (0x78#8, ⟨.sei, .implied, false⟩)]

/-- The SED rows of R66. -/
def opcodeRowsSed : List (Byte × Descriptor) := [
  (0xF8#8, ⟨.sed, .implied, false⟩)]

/-- The BRK rows of R66. -/
def opcodeRowsBrk : List (Byte × Descriptor) := [
  (0x00#8, ⟨.brk, .implied, false⟩)]

/-- `OPCODE_TABLE` (R4, R66): the opcode-to-descriptor map, 41 rows. Five bytes are the source's; the other 36 are the spec's
decision D3 (notes/assumptions/3.md). -/
def opcodeTable : List (Byte × Descriptor) :=
  opcodeRowsLda ++ opcodeRowsSta ++ opcodeRowsAdc ++ opcodeRowsAnd ++ opcodeRowsAsl ++
  opcodeRowsTax ++ opcodeRowsInx ++ opcodeRowsSei ++ opcodeRowsSed ++ opcodeRowsBrk

/-- `Decode(op)` (R31, R83): the row's descriptor for the 41 opcodes, `none` (`valid == 0`) for every other byte. -/
def lookup (op : Byte) : Option Descriptor :=
  (opcodeTable.find? fun row => row.1 == op).map (·.2)

/-- Operand bytes that follow an opcode byte (R60): a function of the opcode alone. A byte outside the table has none read
after it (`20_memory.md` R50). -/
def operandLength (op : Byte) : Nat :=
  match lookup op with
  | some d => d.mode.len
  | none => 0

/-- `op[3:0]` of the decoder's outputs (R31). -/
def Family.code : Family → BitVec 4
  | .brk => 0 | .lda => 1 | .sta => 2 | .adc => 3 | .and => 4
  | .asl => 5 | .tax => 6 | .inx => 7 | .sei => 8 | .sed => 9

/-- `mode[3:0]` of the decoder's outputs (R31). -/
def Mode.code : Mode → BitVec 4
  | .immediate => 0 | .zeroPage => 1 | .zeroPageX => 2 | .absolute => 3 | .absoluteX => 4
  | .absoluteY => 5 | .indirectX => 6 | .indirectY => 7 | .implied => 8 | .relative => 9

/-- The outputs of `instruction_decoder` for a valid opcode (R31). -/
structure DecoderOutputs where
  op : BitVec 4
  mode : BitVec 4
  len : BitVec 2
  accForm : Bool
  deriving DecidableEq, Repr

/-- `instruction_decoder` (R31): `valid == 0` is `none`, so that the don't-care outputs are never there to be used. -/
def decoderOutputs (op : Byte) : Option DecoderOutputs :=
  (lookup op).map fun d =>
    (⟨d.family.code, d.mode.code, BitVec.ofNat 2 d.mode.len, d.accForm⟩ : DecoderOutputs)

/-- Low byte of a word, the byte at the lower address (R45). -/
def loByte (w : Word) : Byte := w.extractLsb' 0 8

/-- High byte of a word, the byte at the higher address (R45). -/
def hiByte (w : Word) : Byte := w.extractLsb' 8 8

/-- `{hi, lo}` (R5, R45). -/
def wordOf (hi lo : Byte) : Word := hi ++ lo

/-- The instruction of a table entry, given its operand bytes `b0`, `b1` (R63; a mode with fewer ignores the rest). `none` on a
(family, mode) pair with no effect rule, which no row of the table has (R70). -/
def instrOf (d : Descriptor) (b0 b1 : Byte) : Option Instr :=
  match d.family, d.mode, d.accForm with
  | .lda, .immediate, false => some (.ldaImm b0)
  | .lda, .zeroPage, false => some (.ldaZp b0)
  | .lda, .zeroPageX, false => some (.ldaZpx b0)
  | .lda, .absolute, false => some (.ldaAbs (wordOf b1 b0))
  | .lda, .absoluteX, false => some (.ldaAbsX (wordOf b1 b0))
  | .lda, .absoluteY, false => some (.ldaAbsY (wordOf b1 b0))
  | .lda, .indirectX, false => some (.ldaIndX b0)
  | .lda, .indirectY, false => some (.ldaIndY b0)
  | .sta, .zeroPage, false => some (.staZp b0)
  | .sta, .zeroPageX, false => some (.staZpx b0)
  | .sta, .absolute, false => some (.staAbs (wordOf b1 b0))
  | .sta, .absoluteX, false => some (.staAbsX (wordOf b1 b0))
  | .sta, .absoluteY, false => some (.staAbsY (wordOf b1 b0))
  | .sta, .indirectX, false => some (.staIndX b0)
  | .sta, .indirectY, false => some (.staIndY b0)
  | .adc, .immediate, false => some (.adcImm b0)
  | .adc, .zeroPage, false => some (.adcZp b0)
  | .adc, .zeroPageX, false => some (.adcZpx b0)
  | .adc, .absolute, false => some (.adcAbs (wordOf b1 b0))
  | .adc, .absoluteX, false => some (.adcAbsX (wordOf b1 b0))
  | .adc, .absoluteY, false => some (.adcAbsY (wordOf b1 b0))
  | .adc, .indirectX, false => some (.adcIndX b0)
  | .adc, .indirectY, false => some (.adcIndY b0)
  | .and, .immediate, false => some (.andImm b0)
  | .and, .zeroPage, false => some (.andZp b0)
  | .and, .zeroPageX, false => some (.andZpx b0)
  | .and, .absolute, false => some (.andAbs (wordOf b1 b0))
  | .and, .absoluteX, false => some (.andAbsX (wordOf b1 b0))
  | .and, .absoluteY, false => some (.andAbsY (wordOf b1 b0))
  | .and, .indirectX, false => some (.andIndX b0)
  | .and, .indirectY, false => some (.andIndY b0)
  | .asl, .implied, true => some (.aslAcc)
  | .asl, .zeroPage, false => some (.aslZp b0)
  | .asl, .zeroPageX, false => some (.aslZpx b0)
  | .asl, .absolute, false => some (.aslAbs (wordOf b1 b0))
  | .asl, .absoluteX, false => some (.aslAbsX (wordOf b1 b0))
  | .tax, .implied, false => some (.tax)
  | .inx, .implied, false => some (.inx)
  | .sei, .implied, false => some (.sei)
  | .sed, .implied, false => some (.sed)
  | .brk, .implied, false => some (.brk)
  | _, _, _ => none

/-- Why bytes are not an instruction. -/
inductive DecodeError where
  /-- The opcode byte is not in the table (or its pairing has no rule: R70 says this cannot occur); the machine raises
  UnimplementedOpcode (`60_exceptions.md` R201). -/
  | unimplementedOpcode (op : Byte)
  /-- Fewer bytes than the instruction has. The machine's fetch never gives such a list (`fetch_not_truncated`). -/
  | truncated
  deriving DecidableEq, Repr

/-- Split the operand bytes off the front of a byte list; an operand byte a mode does not have is 0. -/
def takeOperands : Nat → List Byte → Option (Byte × Byte × List Byte)
  | 0, rest => some (0#8, 0#8, rest)
  | 1, b0 :: rest => some (b0, 0#8, rest)
  | 2, b0 :: b1 :: rest => some (b0, b1, rest)
  | _, _ => none

/-- The instruction at the front of a byte list, and the bytes after it (R60, R61). -/
def decode : List Byte → Except DecodeError (Instr × List Byte)
  | [] => .error .truncated
  | op :: bytes =>
    match lookup op with
    | none => .error (.unimplementedOpcode op)
    | some d =>
      match takeOperands d.mode.len bytes with
      | none => .error .truncated
      | some (b0, b1, rest) =>
        match instrOf d b0 b1 with
        | some i => .ok (i, rest)
        | none => .error (.unimplementedOpcode op)

/-- The bytes of an instruction, opcode first, a word operand low byte first (R61, R66). -/
def encode : Instr → List Byte
  | .ldaImm imm => [0xA9#8, imm]
  | .ldaZp zp => [0xA5#8, zp]
  | .ldaZpx zp => [0xB5#8, zp]
  | .ldaAbs addr => [0xAD#8, loByte addr, hiByte addr]
  | .ldaAbsX base => [0xBD#8, loByte base, hiByte base]
  | .ldaAbsY base => [0xB9#8, loByte base, hiByte base]
  | .ldaIndX zp => [0xA1#8, zp]
  | .ldaIndY zp => [0xB1#8, zp]
  | .staZp zp => [0x85#8, zp]
  | .staZpx zp => [0x95#8, zp]
  | .staAbs addr => [0x8D#8, loByte addr, hiByte addr]
  | .staAbsX base => [0x9D#8, loByte base, hiByte base]
  | .staAbsY base => [0x99#8, loByte base, hiByte base]
  | .staIndX zp => [0x81#8, zp]
  | .staIndY zp => [0x91#8, zp]
  | .adcImm imm => [0x69#8, imm]
  | .adcZp zp => [0x65#8, zp]
  | .adcZpx zp => [0x75#8, zp]
  | .adcAbs addr => [0x6D#8, loByte addr, hiByte addr]
  | .adcAbsX base => [0x7D#8, loByte base, hiByte base]
  | .adcAbsY base => [0x79#8, loByte base, hiByte base]
  | .adcIndX zp => [0x61#8, zp]
  | .adcIndY zp => [0x71#8, zp]
  | .andImm imm => [0x29#8, imm]
  | .andZp zp => [0x25#8, zp]
  | .andZpx zp => [0x35#8, zp]
  | .andAbs addr => [0x2D#8, loByte addr, hiByte addr]
  | .andAbsX base => [0x3D#8, loByte base, hiByte base]
  | .andAbsY base => [0x39#8, loByte base, hiByte base]
  | .andIndX zp => [0x21#8, zp]
  | .andIndY zp => [0x31#8, zp]
  | .aslAcc => [0x0A#8]
  | .aslZp zp => [0x06#8, zp]
  | .aslZpx zp => [0x16#8, zp]
  | .aslAbs addr => [0x0E#8, loByte addr, hiByte addr]
  | .aslAbsX base => [0x1E#8, loByte base, hiByte base]
  | .tax => [0xAA#8]
  | .inx => [0xE8#8]
  | .sei => [0x78#8]
  | .sed => [0xF8#8]
  | .brk => [0x00#8]

/-- The longest instruction, in bytes (R60). -/
def maxInstrBytes : Nat := 3

/-- The bytes of a table word of `nbits` bits: byte k is bits 8k+7..8k, and every bit from `nbits` up is 0. -/
def tableWordBytes (nbits w : Nat) : List Byte :=
  [BitVec.ofNat 8 (w % 2 ^ nbits), BitVec.ofNat 8 (w % 2 ^ nbits / 256), BitVec.ofNat 8 (w % 2 ^ nbits / 65536)]

/-- The instruction this decoder reads from a word numbered as `spec/opcode_table.json` numbers it (R65: byte 0 first). -/
def decodeTableWord (nbits w : Nat) : Option Instr :=
  match decode (tableWordBytes nbits w) with
  | .ok (i, _) => some i
  | .error _ => none

end Sys2Proof
end

