-- ==== Sys2Proof/Machine/State.lean ====
section
/-! DEFINITION. The state of the hardware (`10_state.md` R10 to R27, `20_memory.md` R41), why a step or a load can stop, and the
power-on and reset states. -/

namespace Sys2Proof.Machine

/-- `run_state` (R23): exactly two run states. -/
inductive RunState where
  | halted | running
  deriving DecidableEq, Repr

/-- `fault_cause` (R24, R200): the sticky fault latch. The core itself writes only `none` and `unimplementedOpcode`. -/
inductive FaultCause where
  | none | unimplementedOpcode | programTooLarge | outOfRangeAccess
  deriving DecidableEq, Repr

/-- The six named flags of `P` (R14). -/
inductive Flag where
  | C | Z | I | D | V | N
  deriving DecidableEq, Repr

/-- The memory store (R41), as the list of its locations that differ from `Config.unlistedByte`, addresses strictly rising
(`Memory.wf`). -/
abbrev Memory := List Host.Cell

/-- All the state the spec gives the machine (R10 to R24), with the external store the core drives (R41). `p` stays the 8-bit
register of R14, so that its reserved bits 4 and 5 are held too (R20). -/
structure State where
  a : Byte
  x : Byte
  y : Byte
  p : Byte
  pc : Word
  runState : RunState
  faultCause : FaultCause
  mem : Memory
  deriving DecidableEq, Repr

/-- Why the machine stops with a fault. The one exception of the hardware, UnimplementedOpcode, is no such stop: it is taken,
and leaves a next state (`takeUnimplementedOpcode`, R201). -/
inductive Fault where
  /-- OutOfRangeAccess (`60_exceptions.md` R203). Raised by nothing: every 16-bit address is in the store (R49). Safe. -/
  | outOfRangeAccess
  deriving DecidableEq, Repr

/-- What the model gives no meaning. -/
inductive Refusal where
  /-- An instruction that has no meaning yet. Raised by nothing: every arm of `exec` is a meaning. Safe. -/
  | notModelled (mnemonic : String)
  /-- ProgramTooLarge (`70_reset_and_hazards.md` R237): raised by `load` alone, on more than 32768 bytes. The spec's own
  rejection, which writes nothing. Safe. -/
  | programTooLarge (length : Nat)
  /-- A load while the core is Running: raised by `load` alone. The spec says nothing of its result (`20_memory.md` R54,
  `93_implementation_defined.md` U14). Safe. -/
  | loadWhileRunning
  deriving DecidableEq, Repr

/-- The state after power-on (`70_reset_and_hazards.md` R230, `10_state.md` R27): everything zero, Halted. -/
def State.powerOn : State where
  a := 0
  x := 0
  y := 0
  p := 0
  pc := 0
  runState := .halted
  faultCause := .none
  mem := []

/-- The state right after the first reset on the power-on store (R27, R232): the vector bytes read 0x00, so PC is 0x0000. -/
def State.reset : State where
  a := 0
  x := 0
  y := 0
  p := 0
  pc := 0
  runState := .running
  faultCause := .none
  mem := []

/-- The state with A replaced. -/
def State.setA (s : State) (v : Byte) : State := { s with a := v }

/-- The state with X replaced. -/
def State.setX (s : State) (v : Byte) : State := { s with x := v }

/-- The state with the whole of P replaced. -/
def State.setP (s : State) (v : Byte) : State := { s with p := v }

/-- The state with PC replaced (`load` of the program counter unit, R34). -/
def State.setPc (s : State) (v : Word) : State := { s with pc := v }

/-- The state with the run state replaced. -/
def State.setRunState (s : State) (r : RunState) : State := { s with runState := r }

/-- The state with the fault latch replaced. -/
def State.setFaultCause (s : State) (c : FaultCause) : State := { s with faultCause := c }

/-- The state with the store replaced. -/
def State.setMem (s : State) (m : Memory) : State := { s with mem := m }

end Sys2Proof.Machine
end

