-- ==== Sys2Proof/Machine/Ops.lean ====
section
/-! DEFINITION. The named operations over memory and the program counter, fetching an instruction's bytes, and taking the
one exception (`20_memory.md` R43 to R45, `10_state.md` R34, `40_fetch_decode_execute.md` R80, `60_exceptions.md` R201). -/

namespace Sys2Proof.Machine

/-- The content of a location of the list; an unlisted one holds `Config.unlistedByte`. -/
def Memory.readAt : Memory → Nat → Byte
  | [], _ => Config.unlistedByte
  | (k, v) :: m, a => if k = a then v else Memory.readAt m a

/-- `MemRead(addr, 1)` (R43). -/
def Memory.read (m : Memory) (addr : Word) : Byte := Memory.readAt m addr.toNat

/-- The list with no entry for a location. -/
def Memory.drop (m : Memory) (a : Nat) : Memory := m.filter fun cell => cell.1 != a

/-- The list with an entry put in before the first higher address. -/
def Memory.insert : Memory → Nat → Byte → Memory
  | [], a, v => [(a, v)]
  | (k, w) :: m, a, v => if a < k then (a, v) :: (k, w) :: m else (k, w) :: Memory.insert m a v

/-- `MemWrite(addr, 1, v)` (R44). Writing what an unlisted location reads as removes the entry. -/
def Memory.write (m : Memory) (addr : Word) (v : Byte) : Memory :=
  if v = Config.unlistedByte then Memory.drop m addr.toNat
  else Memory.insert (Memory.drop m addr.toNat) addr.toNat v

/-- The canonical form above a lower bound: addresses rising and inside the store, no entry that reads as unlisted. -/
def Memory.wfFrom : Nat → Memory → Bool
  | _, [] => true
  | low, (k, v) :: m =>
    decide (low ≤ k) && decide (k < Config.memSize) && v != Config.unlistedByte && Memory.wfFrom (k + 1) m

/-- The canonical form of the store, so that equal contents are equal lists. -/
def Memory.wf (m : Memory) : Bool := Memory.wfFrom 0 m

/-- `MemRead16(lo_addr, hi_addr)` (R6, R45): the byte at the first address is bits 7 to 0. -/
def Memory.read16 (m : Memory) (loAddr hiAddr : Word) : Word := wordOf (m.read hiAddr) (m.read loAddr)

/-- Bytes written at increasing addresses, modulo 65536 (the loader's loop, `70_reset_and_hazards.md` R236). -/
def Memory.writeBytes (m : Memory) (addr : Word) : List Byte → Memory
  | [] => m
  | b :: bs => Memory.writeBytes (m.write addr b) (addr + 1#16) bs

/-- `n` bytes read at increasing addresses, modulo 65536 (R60). -/
def Memory.readBytes (m : Memory) : Word → Nat → List Byte
  | _, 0 => []
  | addr, n + 1 => m.read addr :: Memory.readBytes m (addr + 1#16) n

/-- `inc1` (R34): past the opcode. -/
def State.incPc (s : State) : State := s.setPc (s.pc + 1#16)

/-- `add_len` (R34): past a mode's operand bytes. -/
def State.addLen (s : State) (mode : Mode) : State := s.setPc (s.pc + BitVec.ofNat 16 mode.len)

/-- The end of every instruction but the halt (R80, R86): the effect has been done, and PC moves past the operand bytes. -/
def finish (mode : Mode) (s : State) : Host.Outcome State Fault Refusal := .next (s.addLen mode)

/-- The bytes of the instruction at PC (R60, R82): the opcode, then as many operand bytes as the opcode has. -/
def fetchBytes (s : State) : List Byte :=
  s.mem.read s.pc :: s.mem.readBytes (s.pc + 1#16) (operandLength (s.mem.read s.pc))

/-- Taking UnimplementedOpcode, the one exception (R201, R208): the fault is latched and the core halts. Nothing is saved and
nothing is vectored to; PC stands past the opcode already (R85). There is no return from it but reset (R210). -/
def takeUnimplementedOpcode (s : State) : State :=
  (s.setFaultCause .unimplementedOpcode).setRunState .halted

/-- `run_state` as the one bit it is (R23). -/
def RunState.code : RunState → BitVec 1
  | .halted => 0
  | .running => 1

/-- `fault_cause` as the two bits it is (R24, R200). -/
def FaultCause.code : FaultCause → BitVec 2
  | .none => 0
  | .unimplementedOpcode => 1
  | .programTooLarge => 2
  | .outOfRangeAccess => 3

end Sys2Proof.Machine
end

