-- ==== Sys2Proof/Machine/Flags.lean ====
section
/-! DEFINITION. The flag register and the arithmetic unit: every flag computation of the spec (`10_state.md` R14 to R21 and
R33, `43_add_and.md` R140, `44_shift.md` R170). -/

namespace Sys2Proof.Machine

/-- The bit of P that holds a flag (R14). -/
def Flag.bit : Flag → Nat
  | .C => 0
  | .Z => 1
  | .I => 2
  | .D => 3
  | .V => 6
  | .N => 7

/-- A field of P (R6: `P.C`, ...). -/
def getFlag (p : Byte) (f : Flag) : Bool := p.getLsbD f.bit

/-- P with one field written and its other seven bits kept (R14, R32). -/
def setFlag (p : Byte) (f : Flag) (b : Bool) : Byte :=
  if b then p ||| (1#8 <<< f.bit) else p &&& ~~~(1#8 <<< f.bit)

/-- `ZN(v)` (R17): zero, and the literal bit-7 test. -/
def zn (v : Byte) : Bool × Bool := (v == 0#8, v.getLsbD 7)

/-- P with Zero and Negative written "per the load rule" (R17). -/
def setZN (p : Byte) (z n : Bool) : Byte := setFlag (setFlag p .Z z) .N n

/-- The functions of `alu_with_flags` (R33). -/
inductive AluFn where
  | pass | adc | and | asl | inc
  deriving DecidableEq, Repr

/-- `fn[2:0]` (R33). -/
def AluFn.code : AluFn → BitVec 3
  | .pass => 0
  | .adc => 1
  | .and => 2
  | .asl => 3
  | .inc => 4

/-- The outputs of `alu_with_flags` (R33). -/
structure AluOut where
  r : Byte
  c : Bool
  v : Bool
  z : Bool
  n : Bool
  deriving DecidableEq, Repr

/-- The exact sum `a + b + cin`, 0 to 511 (R33, R140). -/
def addSum (a b : Byte) (cin : Bool) : Nat := a.toNat + b.toNat + cin.toNat

/-- `r` of `alu_with_flags` (R33). -/
def aluResult (fn : AluFn) (a b : Byte) (cin : Bool) : Byte :=
  match fn with
  | .pass => b
  | .adc => BitVec.ofNat 8 (addSum a b cin)
  | .and => a &&& b
  | .asl => b <<< 1
  | .inc => b + 1#8

/-- `c_out` of `alu_with_flags` (R33): the ninth bit of the sum, or the bit shifted out. -/
def aluCarry (fn : AluFn) (a b : Byte) (cin : Bool) : Bool :=
  match fn with
  | .adc => decide (addSum a b cin > 255)
  | .asl => b.getLsbD 7
  | .pass => false
  | .and => false
  | .inc => false

/-- `v_out` of `alu_with_flags` (R33, R16): the operands share a sign that the result does not have. -/
def aluOverflow (fn : AluFn) (a b : Byte) (cin : Bool) : Bool :=
  match fn with
  | .adc => (a.getLsbD 7 == b.getLsbD 7) && ((aluResult .adc a b cin).getLsbD 7 != a.getLsbD 7)
  | .pass => false
  | .and => false
  | .asl => false
  | .inc => false

/-- `alu_with_flags` (R33), combinational. The Decimal flag is no input of it (R19). -/
def alu (fn : AluFn) (a b : Byte) (cin : Bool) : AluOut where
  r := aluResult fn a b cin
  c := aluCarry fn a b cin
  v := aluOverflow fn a b cin
  z := (zn (aluResult fn a b cin)).1
  n := (zn (aluResult fn a b cin)).2

end Sys2Proof.Machine
end

