-- ==== Sys2Proof/Machine/Operands.lean ====
section
/-! DEFINITION. The ten addressing modes (`41_addressing_modes.md` R100 to R110) and the assembly of operands from
instruction bytes (`30_encoding.md` R63). An address is computed and nothing is changed (R100). -/

namespace Sys2Proof.Machine

/-- `zext_16(v)` (R6). -/
def zext16 (v : Byte) : Word := v.setWidth 16

/-- `sext_16(v)` (R6). -/
def sext16 (v : Byte) : Word := v.signExtend 16

/-- `EA_Immediate()` (R101): PC itself, which stands at the first operand byte. -/
def eaImmediate (s : State) : Word := s.pc

/-- `EA_ZeroPage()` (R102). -/
def eaZeroPage (zp : Byte) : Word := zext16 zp

/-- `EA_ZeroPageX()` (R103): the sum wraps in 8 bits, before the extension. -/
def eaZeroPageX (zp : Byte) (s : State) : Word := zext16 (zp + s.x)

/-- `EA_Absolute()` (R104). -/
def eaAbsolute (addr : Word) : Word := addr

/-- `EA_AbsoluteX()` (R105), modulo 65536. -/
def eaAbsoluteX (base : Word) (s : State) : Word := base + zext16 s.x

/-- `EA_AbsoluteY()` (R106), modulo 65536. -/
def eaAbsoluteY (base : Word) (s : State) : Word := base + zext16 s.y

/-- The little-endian word at a zero-page pointer, its second byte at `ptr + 1` modulo 256 (R107, R108, R46). -/
def zeroPageWord (m : Memory) (ptr : Byte) : Word := m.read16 (zext16 ptr) (zext16 (ptr + 1#8))

/-- `EA_IndirectX()` (R107): X is added to the pointer, in 8 bits, before it is dereferenced. -/
def eaIndirectX (zp : Byte) (s : State) : Word := zeroPageWord s.mem (zp + s.x)

/-- `EA_IndirectY()` (R108): Y is added to the word, in 16 bits, after the pointer is dereferenced. -/
def eaIndirectY (zp : Byte) (s : State) : Word := zeroPageWord s.mem zp + zext16 s.y

/-- `EA_Relative()` (R110): relative to the address after the two-byte instruction. No opcode uses it. -/
def eaRelative (disp : Byte) (s : State) : Word := s.pc + 1#16 + sext16 disp

/-- The effective address of a mode, given the operand bytes `b0`, `b1`; none for Implied (R109). -/
def eaOf (mode : Mode) (b0 b1 : Byte) (s : State) : Option Word :=
  match mode with
  | .immediate => some (eaImmediate s)
  | .zeroPage => some (eaZeroPage b0)
  | .zeroPageX => some (eaZeroPageX b0 s)
  | .absolute => some (eaAbsolute (wordOf b1 b0))
  | .absoluteX => some (eaAbsoluteX (wordOf b1 b0) s)
  | .absoluteY => some (eaAbsoluteY (wordOf b1 b0) s)
  | .indirectX => some (eaIndirectX b0 s)
  | .indirectY => some (eaIndirectY b0 s)
  | .implied => none
  | .relative => some (eaRelative b0 s)

/-- `resolve(mode, state)` (R100): the effective address from PC (past the opcode), X, Y and memory alone. -/
def resolve (mode : Mode) (s : State) : Option Word :=
  eaOf mode (s.mem.read s.pc) (s.mem.read (s.pc + 1#16)) s

/-- The effective address of an instruction, from the operand bytes it carries (R63, R100); none where its mode has none. -/
def instrAddress (i : Instr) (s : State) : Option Word :=
  eaOf i.mode ((encode i).getD 1 0#8) ((encode i).getD 2 0#8) s

end Sys2Proof.Machine
end

