-- ==== Sys2Proof/Machine/AddAnd.lean ====
section
/-! DEFINITION. ADC and AND (`43_add_and.md`). On entry PC is past the opcode; `finish` moves it past the operand. -/

namespace Sys2Proof.Machine

/-- ADC of a data byte (R140): A, Carry, Overflow, Zero and Negative from the ALU, with the old Carry as carry-in. -/
def adcValue (m : Byte) (s : State) : State :=
  let out := alu .adc s.a m (getFlag s.p .C)
  (s.setA out.r).setP (setZN (setFlag (setFlag s.p .C out.c) .V out.v) out.z out.n)

/-- `ADC(ea)` (R140). -/
def adcFrom (ea : Word) (s : State) : State := adcValue (s.mem.read ea) s

/-- AND of a data byte (R150): A, Zero and Negative. -/
def andValue (m : Byte) (s : State) : State :=
  let out := alu .and s.a m false
  (s.setA out.r).setP (setZN s.p out.z out.n)

/-- `AND(ea)` (R150). -/
def andFrom (ea : Word) (s : State) : State := andValue (s.mem.read ea) s

/-- `ADC #$nn` (R141). -/
def execAdcImm (imm : Byte) (s : State) : Host.Outcome State Fault Refusal :=
  finish .immediate (adcValue imm s)

/-- `ADC $nn` (R142). -/
def execAdcZp (zp : Byte) (s : State) : Host.Outcome State Fault Refusal :=
  finish .zeroPage (adcFrom (eaZeroPage zp) s)

/-- `ADC $nn,X` (R143). -/
def execAdcZpx (zp : Byte) (s : State) : Host.Outcome State Fault Refusal :=
  finish .zeroPageX (adcFrom (eaZeroPageX zp s) s)

/-- `ADC $hhll` (R144). -/
def execAdcAbs (addr : Word) (s : State) : Host.Outcome State Fault Refusal :=
  finish .absolute (adcFrom (eaAbsolute addr) s)

/-- `ADC $hhll,X` (R145). -/
def execAdcAbsX (base : Word) (s : State) : Host.Outcome State Fault Refusal :=
  finish .absoluteX (adcFrom (eaAbsoluteX base s) s)

/-- `ADC $hhll,Y` (R146). -/
def execAdcAbsY (base : Word) (s : State) : Host.Outcome State Fault Refusal :=
  finish .absoluteY (adcFrom (eaAbsoluteY base s) s)

/-- `ADC ($nn,X)` (R147). -/
def execAdcIndX (zp : Byte) (s : State) : Host.Outcome State Fault Refusal :=
  finish .indirectX (adcFrom (eaIndirectX zp s) s)

/-- `ADC ($nn),Y` (R148). -/
def execAdcIndY (zp : Byte) (s : State) : Host.Outcome State Fault Refusal :=
  finish .indirectY (adcFrom (eaIndirectY zp s) s)

/-- `AND #$nn` (R151). -/
def execAndImm (imm : Byte) (s : State) : Host.Outcome State Fault Refusal :=
  finish .immediate (andValue imm s)

/-- `AND $nn` (R152). -/
def execAndZp (zp : Byte) (s : State) : Host.Outcome State Fault Refusal :=
  finish .zeroPage (andFrom (eaZeroPage zp) s)

/-- `AND $nn,X` (R153). -/
def execAndZpx (zp : Byte) (s : State) : Host.Outcome State Fault Refusal :=
  finish .zeroPageX (andFrom (eaZeroPageX zp s) s)

/-- `AND $hhll` (R154). -/
def execAndAbs (addr : Word) (s : State) : Host.Outcome State Fault Refusal :=
  finish .absolute (andFrom (eaAbsolute addr) s)

/-- `AND $hhll,X` (R155). -/
def execAndAbsX (base : Word) (s : State) : Host.Outcome State Fault Refusal :=
  finish .absoluteX (andFrom (eaAbsoluteX base s) s)

/-- `AND $hhll,Y` (R156). -/
def execAndAbsY (base : Word) (s : State) : Host.Outcome State Fault Refusal :=
  finish .absoluteY (andFrom (eaAbsoluteY base s) s)

/-- `AND ($nn,X)` (R157). -/
def execAndIndX (zp : Byte) (s : State) : Host.Outcome State Fault Refusal :=
  finish .indirectX (andFrom (eaIndirectX zp s) s)

/-- `AND ($nn),Y` (R158). -/
def execAndIndY (zp : Byte) (s : State) : Host.Outcome State Fault Refusal :=
  finish .indirectY (andFrom (eaIndirectY zp s) s)

end Sys2Proof.Machine
end

