-- ==== Sys2Proof/Machine/FlagSet.lean ====
section
/-! DEFINITION. SEI and SED (`46_flag_set.md`). Nothing reads either flag (`10_state.md` R18, R19). -/

namespace Sys2Proof.Machine

/-- `SEI` (R185): `P.I <- 1`. -/
def execSei (s : State) : Host.Outcome State Fault Refusal :=
  finish .implied (s.setP (setFlag s.p .I true))

/-- `SED` (R186): `P.D <- 1`. -/
def execSed (s : State) : Host.Outcome State Fault Refusal :=
  finish .implied (s.setP (setFlag s.p .D true))

end Sys2Proof.Machine
end

