-- ==== Sys2Proof/Machine/Halt.lean ====
section
/-! DEFINITION. BRK, the halt (`47_halt.md`). -/

namespace Sys2Proof.Machine

/-- `BRK` (R190): the core halts, and PC stays past the opcode (`40_fetch_decode_execute.md` R84). -/
def execBrk (s : State) : Host.Outcome State Fault Refusal := .next (s.setRunState .halted)

end Sys2Proof.Machine
end

