-- ==== Sys2Proof/Machine/LoadStore.lean ====
section
/-! DEFINITION. LDA and STA (`42_load_store.md`). On entry PC is past the opcode; `finish` moves it past the operand. -/

namespace Sys2Proof.Machine

/-- A data byte goes through the ALU's PASS function to A, and Zero and Negative are written from it (R120, R33). -/
def ldaValue (m : Byte) (s : State) : State :=
  let out := alu .pass s.a m false
  (s.setA out.r).setP (setZN s.p out.z out.n)

/-- `LDA(ea)` (R120). -/
def ldaFrom (ea : Word) (s : State) : State := ldaValue (s.mem.read ea) s

/-- `STA(ea)` (R130): the byte at `ea` becomes A; no flag. -/
def staTo (ea : Word) (s : State) : State := s.setMem (s.mem.write ea s.a)

/-- `LDA #$nn` (R121). -/
def execLdaImm (imm : Byte) (s : State) : Host.Outcome State Fault Refusal :=
  finish .immediate (ldaValue imm s)

/-- `LDA $nn` (R122). -/
def execLdaZp (zp : Byte) (s : State) : Host.Outcome State Fault Refusal :=
  finish .zeroPage (ldaFrom (eaZeroPage zp) s)

/-- `LDA $nn,X` (R123). -/
def execLdaZpx (zp : Byte) (s : State) : Host.Outcome State Fault Refusal :=
  finish .zeroPageX (ldaFrom (eaZeroPageX zp s) s)

/-- `LDA $hhll` (R124). -/
def execLdaAbs (addr : Word) (s : State) : Host.Outcome State Fault Refusal :=
  finish .absolute (ldaFrom (eaAbsolute addr) s)

/-- `LDA $hhll,X` (R125). -/
def execLdaAbsX (base : Word) (s : State) : Host.Outcome State Fault Refusal :=
  finish .absoluteX (ldaFrom (eaAbsoluteX base s) s)

/-- `LDA $hhll,Y` (R126). -/
def execLdaAbsY (base : Word) (s : State) : Host.Outcome State Fault Refusal :=
  finish .absoluteY (ldaFrom (eaAbsoluteY base s) s)

/-- `LDA ($nn,X)` (R127). -/
def execLdaIndX (zp : Byte) (s : State) : Host.Outcome State Fault Refusal :=
  finish .indirectX (ldaFrom (eaIndirectX zp s) s)

/-- `LDA ($nn),Y` (R128). -/
def execLdaIndY (zp : Byte) (s : State) : Host.Outcome State Fault Refusal :=
  finish .indirectY (ldaFrom (eaIndirectY zp s) s)

/-- `STA $nn` (R131). -/
def execStaZp (zp : Byte) (s : State) : Host.Outcome State Fault Refusal :=
  finish .zeroPage (staTo (eaZeroPage zp) s)

/-- `STA $nn,X` (R132). -/
def execStaZpx (zp : Byte) (s : State) : Host.Outcome State Fault Refusal :=
  finish .zeroPageX (staTo (eaZeroPageX zp s) s)

/-- `STA $hhll` (R133). -/
def execStaAbs (addr : Word) (s : State) : Host.Outcome State Fault Refusal :=
  finish .absolute (staTo (eaAbsolute addr) s)

/-- `STA $hhll,X` (R134). -/
def execStaAbsX (base : Word) (s : State) : Host.Outcome State Fault Refusal :=
  finish .absoluteX (staTo (eaAbsoluteX base s) s)

/-- `STA $hhll,Y` (R135). -/
def execStaAbsY (base : Word) (s : State) : Host.Outcome State Fault Refusal :=
  finish .absoluteY (staTo (eaAbsoluteY base s) s)

/-- `STA ($nn,X)` (R136). -/
def execStaIndX (zp : Byte) (s : State) : Host.Outcome State Fault Refusal :=
  finish .indirectX (staTo (eaIndirectX zp s) s)

/-- `STA ($nn),Y` (R137). -/
def execStaIndY (zp : Byte) (s : State) : Host.Outcome State Fault Refusal :=
  finish .indirectY (staTo (eaIndirectY zp s) s)

end Sys2Proof.Machine
end

