-- ==== Sys2Proof/Machine/Shift.lean ====
section
/-! DEFINITION. ASL (`44_shift.md`). It writes Carry and no other flag (R170, `91_not_in_source.md` N7). -/

namespace Sys2Proof.Machine

/-- `ASL_acc()` (R170): A is shifted, and its old bit 7 goes to Carry. -/
def aslA (s : State) : State :=
  let out := alu .asl s.a s.a false
  (s.setA out.r).setP (setFlag s.p .C out.c)

/-- `ASL_mem(ea)` (R170): the byte at `ea` is read, shifted and written back, and its old bit 7 goes to Carry. -/
def aslAt (ea : Word) (s : State) : State :=
  let out := alu .asl s.a (s.mem.read ea) false
  (s.setMem (s.mem.write ea out.r)).setP (setFlag s.p .C out.c)

/-- `ASL A` (R171). -/
def execAslAcc (s : State) : Host.Outcome State Fault Refusal :=
  finish .implied (aslA s)

/-- `ASL $nn` (R172). -/
def execAslZp (zp : Byte) (s : State) : Host.Outcome State Fault Refusal :=
  finish .zeroPage (aslAt (eaZeroPage zp) s)

/-- `ASL $nn,X` (R173). -/
def execAslZpx (zp : Byte) (s : State) : Host.Outcome State Fault Refusal :=
  finish .zeroPageX (aslAt (eaZeroPageX zp s) s)

/-- `ASL $hhll` (R174). -/
def execAslAbs (addr : Word) (s : State) : Host.Outcome State Fault Refusal :=
  finish .absolute (aslAt (eaAbsolute addr) s)

/-- `ASL $hhll,X` (R175). -/
def execAslAbsX (base : Word) (s : State) : Host.Outcome State Fault Refusal :=
  finish .absoluteX (aslAt (eaAbsoluteX base s) s)

end Sys2Proof.Machine
end

