-- ==== Sys2Proof/Machine/TransferIncrement.lean ====
section
/-! DEFINITION. TAX and INX (`45_transfer_increment.md`). -/

namespace Sys2Proof.Machine

/-- A result goes to X, and Zero and Negative are written from it (R180, R181). -/
def toX (out : AluOut) (s : State) : State := (s.setX out.r).setP (setZN s.p out.z out.n)

/-- `TAX` (R180): the ALU's PASS function of A. -/
def execTax (s : State) : Host.Outcome State Fault Refusal :=
  finish .implied (toX (alu .pass s.a s.a false) s)

/-- `INX` (R181): the ALU's INC function of X. Carry and Overflow are not written. -/
def execInx (s : State) : Host.Outcome State Fault Refusal :=
  finish .implied (toX (alu .inc s.a s.x false) s)

end Sys2Proof.Machine
end

