-- ==== Sys2Proof/Machine/Dispatch.lean ====
section
/-! DEFINITION. `Execute(d)` (`40_fetch_decode_execute.md` R80): one arm per instruction, entered with PC past the opcode. -/

namespace Sys2Proof.Machine

def exec (i : Instr) (s : State) : Host.Outcome State Fault Refusal :=
  match i with
  | .ldaImm imm => Sys2Proof.Machine.execLdaImm imm s
  | .ldaZp zp => Sys2Proof.Machine.execLdaZp zp s
  | .ldaZpx zp => Sys2Proof.Machine.execLdaZpx zp s
  | .ldaAbs addr => Sys2Proof.Machine.execLdaAbs addr s
  | .ldaAbsX base => Sys2Proof.Machine.execLdaAbsX base s
  | .ldaAbsY base => Sys2Proof.Machine.execLdaAbsY base s
  | .ldaIndX zp => Sys2Proof.Machine.execLdaIndX zp s
  | .ldaIndY zp => Sys2Proof.Machine.execLdaIndY zp s
  | .staZp zp => Sys2Proof.Machine.execStaZp zp s
  | .staZpx zp => Sys2Proof.Machine.execStaZpx zp s
  | .staAbs addr => Sys2Proof.Machine.execStaAbs addr s
  | .staAbsX base => Sys2Proof.Machine.execStaAbsX base s
  | .staAbsY base => Sys2Proof.Machine.execStaAbsY base s
  | .staIndX zp => Sys2Proof.Machine.execStaIndX zp s
  | .staIndY zp => Sys2Proof.Machine.execStaIndY zp s
  | .adcImm imm => Sys2Proof.Machine.execAdcImm imm s
  | .adcZp zp => Sys2Proof.Machine.execAdcZp zp s
  | .adcZpx zp => Sys2Proof.Machine.execAdcZpx zp s
  | .adcAbs addr => Sys2Proof.Machine.execAdcAbs addr s
  | .adcAbsX base => Sys2Proof.Machine.execAdcAbsX base s
  | .adcAbsY base => Sys2Proof.Machine.execAdcAbsY base s
  | .adcIndX zp => Sys2Proof.Machine.execAdcIndX zp s
  | .adcIndY zp => Sys2Proof.Machine.execAdcIndY zp s
  | .andImm imm => Sys2Proof.Machine.execAndImm imm s
  | .andZp zp => Sys2Proof.Machine.execAndZp zp s
  | .andZpx zp => Sys2Proof.Machine.execAndZpx zp s
  | .andAbs addr => Sys2Proof.Machine.execAndAbs addr s
  | .andAbsX base => Sys2Proof.Machine.execAndAbsX base s
  | .andAbsY base => Sys2Proof.Machine.execAndAbsY base s
  | .andIndX zp => Sys2Proof.Machine.execAndIndX zp s
  | .andIndY zp => Sys2Proof.Machine.execAndIndY zp s
  | .aslAcc => Sys2Proof.Machine.execAslAcc s
  | .aslZp zp => Sys2Proof.Machine.execAslZp zp s
  | .aslZpx zp => Sys2Proof.Machine.execAslZpx zp s
  | .aslAbs addr => Sys2Proof.Machine.execAslAbs addr s
  | .aslAbsX base => Sys2Proof.Machine.execAslAbsX base s
  | .tax => Sys2Proof.Machine.execTax s
  | .inx => Sys2Proof.Machine.execInx s
  | .sei => Sys2Proof.Machine.execSei s
  | .sed => Sys2Proof.Machine.execSed s
  | .brk => Sys2Proof.Machine.execBrk s

end Sys2Proof.Machine
end

