-- ==== Sys2Proof/Machine/Step.lean ====
section
/-! DEFINITION. The step (`40_fetch_decode_execute.md` R80, R81) and where a word stands that the next step fetches. -/

namespace Sys2Proof.Machine

/-- One step request (R80, R81). Halted: nothing happens. Running: the instruction at PC is fetched and PC moves past the
opcode; an opcode outside the table takes the exception, any other instruction executes. -/
def step (s : State) : Host.Outcome State Fault Refusal :=
  match s.runState with
  | .halted => .next s
  | .running =>
    match decode (fetchBytes s) with
    | .ok (i, _) => exec i s.incPc
    | .error _ => .next (takeUnimplementedOpcode s.incPc)

/-- The state with a table word's bytes at PC and the core Running, so that the next step fetches and runs that word. -/
def State.withFetchWord (s : State) (nbits w : Nat) : State :=
  (s.setMem (s.mem.writeBytes s.pc (tableWordBytes nbits w))).setRunState .running

end Sys2Proof.Machine
end

