-- ==== Sys2Proof/Machine/Access.lean ====
section
/-! DEFINITION. The memory accesses of one step, in order (`20_memory.md` R42, R47, R50): what the core drives on its memory
interface. No state: a list computed from the state at the start of the step. -/

namespace Sys2Proof.Machine

/-- One access at the memory interface (R42): one byte read, or one byte written. -/
inductive Access where
  | read (addr : Word)
  | write (addr : Word) (v : Byte)
  deriving DecidableEq, Repr

/-- What the core drives for one access (R36, R42): `mem_addr`, `mem_re`, `mem_we`, `mem_wdata` (none on a read). -/
structure MemPorts where
  addr : Word
  re : Bool
  we : Bool
  wdata : Option Byte
  deriving DecidableEq, Repr

/-- The interface signals of an access (R42). -/
def Access.ports : Access → MemPorts
  | .read addr => ⟨addr, true, false, none⟩
  | .write addr v => ⟨addr, false, true, some v⟩

/-- The operand and pointer bytes a mode reads before the data access (R50), from the state with PC past the opcode. The one
byte an Immediate instruction reads is its data access. -/
def addressReads (mode : Mode) (s : State) : List Access :=
  match mode with
  | .implied => []
  | .immediate => []
  | .zeroPage => [.read s.pc]
  | .zeroPageX => [.read s.pc]
  | .absolute => [.read s.pc, .read (s.pc + 1#16)]
  | .absoluteX => [.read s.pc, .read (s.pc + 1#16)]
  | .absoluteY => [.read s.pc, .read (s.pc + 1#16)]
  | .indirectX =>
    [.read s.pc, .read (zext16 (s.mem.read s.pc + s.x)), .read (zext16 (s.mem.read s.pc + s.x + 1#8))]
  | .indirectY => [.read s.pc, .read (zext16 (s.mem.read s.pc)), .read (zext16 (s.mem.read s.pc + 1#8))]
  | .relative => [.read s.pc]

/-- The data access at the effective address (R50): one read for LDA, ADC and AND, one write for STA, a read and then a write
for ASL; none where the mode gives no address. -/
def dataAccesses (family : Family) (ea : Option Word) (s : State) : List Access :=
  match ea with
  | none => []
  | some addr =>
    match family with
    | .lda => [.read addr]
    | .adc => [.read addr]
    | .and => [.read addr]
    | .sta => [.write addr s.a]
    | .asl => [.read addr, .write addr (alu .asl s.a (s.mem.read addr) false).r]
    | .tax => []
    | .inx => []
    | .sei => []
    | .sed => []
    | .brk => []

/-- The accesses of one step, in order (R50); none when Halted (R81), the opcode fetch alone for an opcode outside the table. -/
def stepAccesses (s : State) : List Access :=
  match s.runState with
  | .halted => []
  | .running =>
    match lookup (s.mem.read s.pc) with
    | none => [.read s.pc]
    | some d =>
      .read s.pc :: (addressReads d.mode s.incPc ++ dataAccesses d.family (resolve d.mode s.incPc) s.incPc)

/-- The accesses of a reset (R232): the vector, low byte first. -/
def resetAccesses : List Access := [.read Config.resetVectorLo, .read Config.resetVectorHi]

/-- The store after one access (R43, R44). -/
def Access.apply : Access → Memory → Memory
  | .read _, m => m
  | .write addr v, m => m.write addr v

end Sys2Proof.Machine
end

