-- ==== Sys2Proof/Machine/Platform.lean ====
section
/-! DEFINITION. What the outside can do to the core and see of it: reset, the loader at its interface, step requests, the
output and debug ports (`10_state.md` R35 to R37, `70_reset_and_hazards.md` R230 to R237, `60_exceptions.md` R207). -/

namespace Sys2Proof.Machine

/-- `Reset()` (R232). It writes no memory. -/
def resetCore (s : State) : State where
  a := 0
  x := 0
  y := 0
  p := 0
  pc := s.mem.read16 Config.resetVectorLo Config.resetVectorHi
  runState := .running
  faultCause := .none
  mem := s.mem

/-- The store after `Load(bytes)` (R236): the program at 0x8000, then the vector, which is written last. -/
def loadedStore (bytes : List Byte) (m : Memory) : Memory :=
  ((m.writeBytes Config.loadBase bytes).write Config.resetVectorLo (loByte Config.loadBase)).write
    Config.resetVectorHi (hiByte Config.loadBase)

/-- `Load(bytes)` (R236, R237): rejected, with nothing written, when the program is too large; refused while Running, of which
the spec says nothing (R54). It changes nothing but the store. -/
def load (bytes : List Byte) (s : State) : Host.Outcome State Fault Refusal :=
  match s.runState with
  | .running => .refused .loadWhileRunning
  | .halted =>
    if Config.maxProgram < bytes.length then .refused (.programTooLarge bytes.length)
    else .next (s.setMem (loadedStore bytes s.mem))

/-- The request inputs, sampled between steps (R36). -/
structure Requests where
  resetReq : Bool
  stepReq : Bool
  deriving DecidableEq, Repr

/-- What the core does with its requests (R207, R231): a reset is taken first, and the step, if still requested, runs from the
reset state. -/
def serve (req : Requests) (s : State) : Host.Outcome State Fault Refusal :=
  let s' := if req.resetReq then resetCore s else s
  if req.stepReq then step s' else .next s'

/-- `run` with `run_en` held over `n` sampling points (R35, `40_fetch_decode_execute.md` R89): steps back to back while
Running, and none once Halted. That it need not end is `n` being any number. -/
def run : Nat → State → Host.Outcome State Fault Refusal
  | 0, s => .next s
  | n + 1, s =>
    match s.runState with
    | .halted => .next s
    | .running =>
      match step s with
      | .next t => run n t
      | .fault f => .fault f
      | .refused r => .refused r

/-- The output ports (R36) and the debug outputs (R37, R219), meaningful between steps. They show the state and change none
of it. -/
structure Outputs where
  halted : Bool
  faultCause : BitVec 2
  dbgA : Byte
  dbgX : Byte
  dbgY : Byte
  dbgP : Byte
  dbgPc : Word
  deriving DecidableEq, Repr

/-- The outputs at a state (R36, R37). -/
def State.outputs (s : State) : Outputs where
  halted := s.runState == .halted
  faultCause := s.faultCause.code
  dbgA := s.a
  dbgX := s.x
  dbgY := s.y
  dbgP := s.p
  dbgPc := s.pc

end Sys2Proof.Machine
end

