-- ==== Sys2Proof/Safety.lean ====
section
/-! DEFINITION. The terms claims use: how a run ends (`40_fetch_decode_execute.md` R90), the invariant of the machine, and the
states that power-on, loads, resets and steps reach. -/

namespace Sys2Proof.Machine

/-- A clean halt (R24, R90): the successful end of a run. -/
def State.haltedCleanly (s : State) : Prop := s.runState = .halted ∧ s.faultCause = .none

/-- A faulted stop (R24, R90): never a successful end. -/
def State.stoppedInFault (s : State) : Prop := s.runState = .halted ∧ s.faultCause = .unimplementedOpcode

/-- What holds of every state the hardware can be in. -/
structure Inv (s : State) : Prop where
  /-- Equal stores are equal lists (the model's own form). -/
  memWf : s.mem.wf = true
  /-- Nothing writes Y but reset (`10_state.md` R13). -/
  yZero : s.y = 0
  /-- `P[4]` is 0 (R20). -/
  reserved4 : s.p.getLsbD 4 = false
  /-- `P[5]` is 0 (R20). -/
  reserved5 : s.p.getLsbD 5 = false
  /-- The core writes only codes 0 and 1 (R24). -/
  cause : s.faultCause = .none ∨ s.faultCause = .unimplementedOpcode
  /-- Running with a latched fault is unreachable (R24). -/
  faultHalts : s.faultCause ≠ .none → s.runState = .halted

/-- The states reached from power-on by loads and by requests (R88, R230). -/
inductive Reachable : State → Prop where
  | powerOn : Reachable State.powerOn
  | load (bytes : List Byte) {s t : State} : Reachable s → load bytes s = .next t → Reachable t
  | serve (req : Requests) {s t : State} : Reachable s → serve req s = .next t → Reachable t

end Sys2Proof.Machine
end

