-- ==== Sys2Proof/Certificates/Slice0/Obligations.lean ====
section
/-! DEFINITION. The statements for the provers, from the numbered rules of spec/. First the words they are written in: the
spec's address formulas and lists of opcode bytes, written out again from its text, and what a state after an instruction
holds, field by field. -/

namespace Sys2Proof.Claims

open Sys2Proof.Machine

/-! ### The spec's own numbers -/

/-- The one-byte opcodes of `30_encoding.md` R66 but for the halt opcode: ASL A, SEI, TAX, INX, SED. -/
def oneByteOpcodes : List Byte := [0x0A#8, 0x78#8, 0xAA#8, 0xE8#8, 0xF8#8]

/-- The two-byte opcodes of R66: Immediate, ZeroPage, ZeroPageX, IndirectX, IndirectY. -/
def twoByteOpcodes : List Byte :=
  [0x06#8, 0x16#8, 0x21#8, 0x25#8, 0x29#8, 0x31#8, 0x35#8, 0x61#8, 0x65#8, 0x69#8, 0x71#8, 0x75#8] ++
  [0x81#8, 0x85#8, 0x91#8, 0x95#8, 0xA1#8, 0xA5#8, 0xA9#8, 0xB1#8, 0xB5#8]

/-- The three-byte opcodes of R66: Absolute, AbsoluteX, AbsoluteY. -/
def threeByteOpcodes : List Byte :=
  [0x0E#8, 0x1E#8, 0x2D#8, 0x39#8, 0x3D#8, 0x6D#8, 0x79#8, 0x7D#8, 0x8D#8, 0x99#8, 0x9D#8, 0xAD#8, 0xB9#8, 0xBD#8]

/-- The 41 opcode bytes of R66, as the model fixes them (notes/assumptions/3.md). -/
def implementedOpcodes : List Byte := 0x00#8 :: (oneByteOpcodes ++ twoByteOpcodes ++ threeByteOpcodes)

/-- R66 and R67 by mode: each mode's code (`10_state.md` R31) and operand length (R62), with its opcode bytes and the code of
each one's family. -/
def opcodeMap : List (Nat × Nat × List (Byte × Nat)) := [
  (0, 1, [(0xA9#8, 1), (0x69#8, 3), (0x29#8, 4)]),
  (1, 1, [(0xA5#8, 1), (0x85#8, 2), (0x65#8, 3), (0x25#8, 4), (0x06#8, 5)]),
  (2, 1, [(0xB5#8, 1), (0x95#8, 2), (0x75#8, 3), (0x35#8, 4), (0x16#8, 5)]),
  (3, 2, [(0xAD#8, 1), (0x8D#8, 2), (0x6D#8, 3), (0x2D#8, 4), (0x0E#8, 5)]),
  (4, 2, [(0xBD#8, 1), (0x9D#8, 2), (0x7D#8, 3), (0x3D#8, 4), (0x1E#8, 5)]),
  (5, 2, [(0xB9#8, 1), (0x99#8, 2), (0x79#8, 3), (0x39#8, 4)]),
  (6, 1, [(0xA1#8, 1), (0x81#8, 2), (0x61#8, 3), (0x21#8, 4)]),
  (7, 1, [(0xB1#8, 1), (0x91#8, 2), (0x71#8, 3), (0x31#8, 4)]),
  (8, 0, [(0x00#8, 0), (0x0A#8, 5), (0xAA#8, 6), (0xE8#8, 7), (0x78#8, 8), (0xF8#8, 9)])]

/-- `zext_16(n mod 256)` (`41_addressing_modes.md` R102, R103). -/
def pageZero (n : Nat) : Word := BitVec.ofNat 16 (n % 256)

/-- `({hh, ll} + index) mod 65536` (R104 to R106). -/
def absolute (ll hh : Byte) (index : Nat) : Word := BitVec.ofNat 16 ((ll.toNat + 256 * hh.toNat + index) % 65536)

/-- The little-endian word at zero-page `ptr`, `(ptr + 1) mod 256` (R107, R108). -/
def pointerAt (m : Memory) (ptr : Nat) : Nat :=
  (m.read (pageZero ptr)).toNat + 256 * (m.read (pageZero (ptr + 1))).toNat

/-- The address of IndirectX (R107). -/
def indirectX (nn : Byte) (s : State) : Word := BitVec.ofNat 16 (pointerAt s.mem (nn.toNat + s.x.toNat))

/-- The address of IndirectY (R108). -/
def indirectY (nn : Byte) (s : State) : Word := BitVec.ofNat 16 ((pointerAt s.mem nn.toNat + s.y.toNat) % 65536)

/-! ### What a state holds after an instruction -/

/-- The outcome is a next state, and of that state the property holds. -/
def Answers (o : Host.Outcome State Fault Refusal) (after : State → Prop) : Prop := ∃ t, o = .next t ∧ after t

/-- The bytes stand at PC and the addresses after it, modulo 65536. -/
def BytesAtPc (s : State) (bytes : List Byte) : Prop := s.mem.readBytes s.pc bytes.length = bytes

/-- Every bit of P but those listed is as before, the reserved bits among them. -/
def KeepsFlagsBut (written : List Nat) (s t : State) : Prop :=
  ∀ i, i < 8 → i ∉ written → t.p.getLsbD i = s.p.getLsbD i

/-- Zero and Negative are the load rule's of a byte (`10_state.md` R17). -/
def ZeroNegativeOf (v : Byte) (t : State) : Prop :=
  t.p.getLsbD 1 = decide (v.toNat = 0) ∧ t.p.getLsbD 7 = decide (v.toNat ≥ 128)

/-- Every byte of memory reads as before. -/
def KeepsStore (s t : State) : Prop := ∀ b : Word, t.mem.read b = s.mem.read b

/-- One byte of memory is stored, and every other reads as before. -/
def StoresOnly (ea : Word) (v : Byte) (s t : State) : Prop :=
  ∀ b : Word, t.mem.read b = if b = ea then v else s.mem.read b

/-- The run state and the fault latch are as before. -/
def KeepsControl (s t : State) : Prop := t.runState = s.runState ∧ t.faultCause = s.faultCause

/-- After LDA of the byte `m` (`42_load_store.md` R120). -/
structure LdaEffect (m : Byte) (pc : Word) (s t : State) : Prop where
  a : t.a = m
  zeroNegative : ZeroNegativeOf m t
  otherFlags : KeepsFlagsBut [1, 7] s t
  x : t.x = s.x
  y : t.y = s.y
  pc : t.pc = pc
  store : KeepsStore s t
  control : KeepsControl s t

/-- After STA to `ea` (R130). -/
structure StaEffect (ea : Word) (pc : Word) (s t : State) : Prop where
  store : StoresOnly ea s.a s t
  a : t.a = s.a
  x : t.x = s.x
  y : t.y = s.y
  p : t.p = s.p
  pc : t.pc = pc
  control : KeepsControl s t

/-- After ADC of the byte `m` (`43_add_and.md` R140), with the exact sum of A, `m` and Carry before. -/
structure AdcEffect (m : Byte) (pc : Word) (s t : State) : Prop where
  a : t.a.toNat = (s.a.toNat + m.toNat + (s.p.getLsbD 0).toNat) % 256
  carry : t.p.getLsbD 0 = decide (s.a.toNat + m.toNat + (s.p.getLsbD 0).toNat > 255)
  overflow : t.p.getLsbD 6 = decide (s.a.getLsbD 7 = m.getLsbD 7 ∧ t.a.getLsbD 7 ≠ s.a.getLsbD 7)
  zeroNegative : ZeroNegativeOf t.a t
  otherFlags : KeepsFlagsBut [0, 1, 6, 7] s t
  x : t.x = s.x
  y : t.y = s.y
  pc : t.pc = pc
  store : KeepsStore s t
  control : KeepsControl s t

/-- After AND of the byte `m` (R150). -/
structure AndEffect (m : Byte) (pc : Word) (s t : State) : Prop where
  a : ∀ i, i < 8 → t.a.getLsbD i = (s.a.getLsbD i && m.getLsbD i)
  zeroNegative : ZeroNegativeOf t.a t
  otherFlags : KeepsFlagsBut [1, 7] s t
  x : t.x = s.x
  y : t.y = s.y
  pc : t.pc = pc
  store : KeepsStore s t
  control : KeepsControl s t

/-- After ASL of the byte at `ea` (`44_shift.md` R170): Carry alone of the flags. -/
structure AslMemoryEffect (ea : Word) (pc : Word) (s t : State) : Prop where
  store : StoresOnly ea (BitVec.ofNat 8 (2 * (s.mem.read ea).toNat % 256)) s t
  carry : t.p.getLsbD 0 = (s.mem.read ea).getLsbD 7
  otherFlags : KeepsFlagsBut [0] s t
  a : t.a = s.a
  x : t.x = s.x
  y : t.y = s.y
  pc : t.pc = pc
  control : KeepsControl s t

/-- After ASL of A (R170, R171). -/
structure AslAccumulatorEffect (pc : Word) (s t : State) : Prop where
  a : t.a.toNat = 2 * s.a.toNat % 256
  carry : t.p.getLsbD 0 = s.a.getLsbD 7
  otherFlags : KeepsFlagsBut [0] s t
  x : t.x = s.x
  y : t.y = s.y
  pc : t.pc = pc
  store : KeepsStore s t
  control : KeepsControl s t

/-- After TAX or INX, `n` being the number X becomes (`45_transfer_increment.md` R180, R181). -/
structure XEffect (n : Nat) (pc : Word) (s t : State) : Prop where
  x : t.x.toNat = n
  zeroNegative : ZeroNegativeOf t.x t
  otherFlags : KeepsFlagsBut [1, 7] s t
  a : t.a = s.a
  y : t.y = s.y
  pc : t.pc = pc
  store : KeepsStore s t
  control : KeepsControl s t

/-- After SEI (bit 2) or SED (bit 3) (`46_flag_set.md` R185, R186). -/
structure FlagSetEffect (bit : Nat) (pc : Word) (s t : State) : Prop where
  flag : t.p.getLsbD bit = true
  otherFlags : KeepsFlagsBut [bit] s t
  a : t.a = s.a
  x : t.x = s.x
  y : t.y = s.y
  pc : t.pc = pc
  store : KeepsStore s t
  control : KeepsControl s t

/-- After BRK (`47_halt.md` R190). -/
structure HaltEffect (pc : Word) (s t : State) : Prop where
  halted : t.runState = .halted
  faultCause : t.faultCause = s.faultCause
  a : t.a = s.a
  x : t.x = s.x
  y : t.y = s.y
  p : t.p = s.p
  pc : t.pc = pc
  store : KeepsStore s t

/-- After UnimplementedOpcode is taken (`60_exceptions.md` R201). -/
structure FaultEffect (pc : Word) (s t : State) : Prop where
  faultCause : t.faultCause = .unimplementedOpcode
  halted : t.runState = .halted
  a : t.a = s.a
  x : t.x = s.x
  y : t.y = s.y
  p : t.p = s.p
  pc : t.pc = pc
  store : KeepsStore s t

/-- The bits of P a family writes (`10_state.md` R21). -/
def writtenFlags : Family → List Nat
  | .lda => [1, 7]
  | .sta => []
  | .adc => [0, 1, 6, 7]
  | .and => [1, 7]
  | .asl => [0]
  | .tax => [1, 7]
  | .inx => [1, 7]
  | .sei => [2]
  | .sed => [3]
  | .brk => []

/-- The instructions that write memory: STA, and ASL with a memory operand (`20_memory.md` R44). -/
def Stores (i : Instr) : Prop := i.family = .sta ∨ (i.family = .asl ∧ i.mode ≠ .implied)

/-- Two states with the same registers, flags and control state; their stores may differ. -/
structure SameButStore (s t : State) : Prop where
  a : t.a = s.a
  x : t.x = s.x
  y : t.y = s.y
  p : t.p = s.p
  pc : t.pc = s.pc
  runState : t.runState = s.runState
  faultCause : t.faultCause = s.faultCause

/-- Two states that differ at most in the InterruptDisable and Decimal flags. -/
structure SameButInertFlags (s t : State) : Prop where
  a : t.a = s.a
  x : t.x = s.x
  y : t.y = s.y
  otherFlags : KeepsFlagsBut [2, 3] s t
  pc : t.pc = s.pc
  runState : t.runState = s.runState
  faultCause : t.faultCause = s.faultCause
  mem : t.mem = s.mem

/-- A line of the table of `20_memory.md` R50: after the opcode fetch, the accesses that form the address, then one read for a
load, one write for a store, a read and a write for a shift. -/
def AccessLine (s : State) (loads : List Byte) (store : Byte) (shifts : List Byte) (before : List Access) (ea : Word) :
    Prop :=
  (s.mem.read s.pc ∈ loads → stepAccesses s = .read s.pc :: (before ++ [.read ea])) ∧
  (s.mem.read s.pc = store → stepAccesses s = .read s.pc :: (before ++ [.write ea s.a])) ∧
  (s.mem.read s.pc ∈ shifts → stepAccesses s =
    .read s.pc :: (before ++ [.read ea, .write ea (BitVec.ofNat 8 (2 * (s.mem.read ea).toNat % 256))]))

end Sys2Proof.Claims

open Sys2Proof Sys2Proof.Machine Sys2Proof.Claims

/-! ### Encoding -/

/-- Decoding an instruction's own bytes gives it back, whatever bytes follow (`30_encoding.md` R60, R61, R63, R66). -/
def Obligations.DecodeOfEncodeIsTheInstruction : Prop :=
  ∀ (i : Instr) (rest : List Byte), decode (encode i ++ rest) = .ok (i, rest)

/-- An instruction read from bytes stands there as its own encoding: no word decodes to an instruction it is not the encoding
of (R64, R69). -/
def Obligations.DecodedBytesAreTheEncoding : Prop :=
  ∀ (bytes rest : List Byte) (i : Instr), decode bytes = .ok (i, rest) → bytes = encode i ++ rest

/-- The decoder's outputs are those of the opcode map, byte for byte, and invalid outside it (R66, `10_state.md` R31). -/
def Obligations.DecoderOutputsAreTheOpcodeMap : Prop :=
  (∀ line ∈ opcodeMap, ∀ entry ∈ line.2.2, decoderOutputs entry.1 = some
    { op := BitVec.ofNat 4 entry.2, mode := BitVec.ofNat 4 line.1, len := BitVec.ofNat 2 line.2.1,
      accForm := entry.1 == 0x0A#8 }) ∧
  ∀ op : Byte, op ∉ implementedOpcodes → decoderOutputs op = none

/-- Of the 256 opcode bytes the decoder accepts the 41 of R66, with any operand bytes, and refuses each of the others by name
(R68, R83). -/
def Obligations.DecoderAcceptsExactlyTheTable : Prop :=
  ∀ (op b0 b1 : Byte) (rest : List Byte),
    (op ∈ implementedOpcodes → ∃ i after, decode (op :: b0 :: b1 :: rest) = .ok (i, after)) ∧
    (op ∉ implementedOpcodes → decode (op :: b0 :: b1 :: rest) = .error (.unimplementedOpcode op))

/-- The words of R71 and of `95_test_vectors.md`, one or more of each family, decode to what they stand for. -/
def Obligations.WrittenOutWordsDecode : Prop :=
  decode [0xA9#8, 0x05#8] = .ok (.ldaImm 0x05, []) ∧
  decode [0xAD#8, 0x34#8, 0x12#8] = .ok (.ldaAbs 0x1234, []) ∧
  decode [0xB1#8, 0x40#8] = .ok (.ldaIndY 0x40, []) ∧
  decode [0x9D#8, 0xFF#8, 0x01#8] = .ok (.staAbsX 0x01FF, []) ∧
  decode [0x81#8, 0x3F#8] = .ok (.staIndX 0x3F, []) ∧
  decode [0x79#8, 0x00#8, 0x20#8] = .ok (.adcAbsY 0x2000, []) ∧
  decode [0x35#8, 0x10#8] = .ok (.andZpx 0x10, []) ∧
  decode [0x0A#8] = .ok (.aslAcc, []) ∧
  decode [0x1E#8, 0x00#8, 0x03#8] = .ok (.aslAbsX 0x0300, []) ∧
  decode [0xAA#8] = .ok (.tax, []) ∧ decode [0xE8#8] = .ok (.inx, []) ∧ decode [0x78#8] = .ok (.sei, []) ∧
  decode [0xF8#8] = .ok (.sed, []) ∧ decode [0x00#8] = .ok (.brk, []) ∧
  decode [0xEA#8] = .error (.unimplementedOpcode 0xEA)

/-! ### The step -/

/-- When the bytes fetched at PC decode to an instruction, the step of a Running core is that instruction's execution with PC
past the opcode (`40_fetch_decode_execute.md` R80). -/
def Obligations.StepRunsTheDecodedInstruction : Prop :=
  ∀ (s : State) (i : Instr) (rest : List Byte), s.runState = .running → decode (fetchBytes s) = .ok (i, rest) →
    step s = exec i { s with pc := s.pc + 1#16 }

/-- When an instruction's encoding stands in memory at PC, wherever that is and across 0xFFFF too, the step of a Running core
executes it (R80, R82). -/
def Obligations.StepRunsTheInstructionInMemory : Prop :=
  ∀ (s : State) (i : Instr), s.runState = .running → BytesAtPc s (encode i) →
    step s = exec i { s with pc := s.pc + 1#16 }

/-- An opcode byte outside the table: the fault is latched, the core halts, PC stands past the byte, and nothing else changes;
no byte but the opcode is read (`60_exceptions.md` R201, `40_fetch_decode_execute.md` R85; that the outcome is a next state and
no fault is the model's choice, notes/assumptions/6.md). -/
def Obligations.UnimplementedOpcodeIsTaken : Prop :=
  ∀ s : State, s.runState = .running → s.mem.read s.pc ∉ implementedOpcodes →
    Answers (step s) (FaultEffect (s.pc + 1#16) s) ∧ stepAccesses s = [.read s.pc] ∧
    ∀ t, step s = .next t → t.pc - 1#16 = s.pc ∧ t.mem.read (t.pc - 1#16) ∉ implementedOpcodes

/-- A step request to a Halted core changes nothing and accesses nothing (R81; that the model answers the same state, where R81
also lets a model give no step, is notes/assumptions/1.md). -/
def Obligations.HaltedStepChangesNothing : Prop :=
  ∀ s : State, s.runState = .halted → step s = .next s ∧ stepAccesses s = []

/-- No instruction faults, and the only event of a step that changes the fault latch is an opcode outside the table
(`60_exceptions.md` R204; that every step answers a next state is the model's choice, for a Halted core notes/assumptions/1.md,
for the exception notes/assumptions/6.md). -/
def Obligations.NoOtherException : Prop :=
  (∀ (i : Instr) (s : State), Answers (exec i s) fun t => t.faultCause = s.faultCause) ∧
  ∀ s : State, Answers (step s) fun t =>
    t.faultCause = s.faultCause ∨
      (t.faultCause = .unimplementedOpcode ∧ s.runState = .running ∧ s.mem.read s.pc ∉ implementedOpcodes)

/-- PC after an ordinary step, by the length the opcode had when it was fetched (R86). The store may have changed the
instruction's own bytes meanwhile (`20_memory.md` R53). -/
def Obligations.PcAfterAnOrdinaryStep : Prop :=
  ∀ s : State, s.runState = .running →
    (s.mem.read s.pc ∈ oneByteOpcodes → Answers (step s) fun t => t.pc = s.pc + 1#16 ∧ KeepsControl s t) ∧
    (s.mem.read s.pc ∈ twoByteOpcodes → Answers (step s) fun t => t.pc = s.pc + 2#16 ∧ KeepsControl s t) ∧
    (s.mem.read s.pc ∈ threeByteOpcodes → Answers (step s) fun t => t.pc = s.pc + 3#16 ∧ KeepsControl s t)

/-- The state machine of R88, row by row. That the model answers the same state in its last row is notes/assumptions/1.md, and
that the row of an opcode not in the table answers a next state notes/assumptions/6.md. -/
def Obligations.RunStateMachine : Prop :=
  State.powerOn.runState = .halted ∧
  (∀ s : State, (resetCore s).runState = .running) ∧
  (∀ s : State, s.runState = .running → s.mem.read s.pc = 0x00#8 →
    Answers (step s) fun t => t.runState = .halted ∧ t.faultCause = s.faultCause) ∧
  (∀ s : State, s.runState = .running → s.mem.read s.pc ∉ implementedOpcodes →
    Answers (step s) fun t => t.runState = .halted ∧ t.faultCause = .unimplementedOpcode) ∧
  (∀ s : State, s.runState = .running → s.mem.read s.pc ∈ implementedOpcodes → s.mem.read s.pc ≠ 0x00#8 →
    Answers (step s) fun t => t.runState = .running) ∧
  (∀ s : State, s.runState = .halted → Answers (step s) fun t => t = s)

/-! ### Each instruction completes, on every state and every operand, with this effect and no other -/

/-- LDA, eight forms (`42_load_store.md` R120). -/
def Obligations.LdaCompletes : Prop :=
  ∀ s : State,
    (∀ imm, Answers (exec (.ldaImm imm) s) (LdaEffect imm (s.pc + 1#16) s)) ∧
    (∀ zp, Answers (exec (.ldaZp zp) s) (LdaEffect (s.mem.read (eaZeroPage zp)) (s.pc + 1#16) s)) ∧
    (∀ zp, Answers (exec (.ldaZpx zp) s) (LdaEffect (s.mem.read (eaZeroPageX zp s)) (s.pc + 1#16) s)) ∧
    (∀ addr, Answers (exec (.ldaAbs addr) s) (LdaEffect (s.mem.read (eaAbsolute addr)) (s.pc + 2#16) s)) ∧
    (∀ base, Answers (exec (.ldaAbsX base) s) (LdaEffect (s.mem.read (eaAbsoluteX base s)) (s.pc + 2#16) s)) ∧
    (∀ base, Answers (exec (.ldaAbsY base) s) (LdaEffect (s.mem.read (eaAbsoluteY base s)) (s.pc + 2#16) s)) ∧
    (∀ zp, Answers (exec (.ldaIndX zp) s) (LdaEffect (s.mem.read (eaIndirectX zp s)) (s.pc + 1#16) s)) ∧
    (∀ zp, Answers (exec (.ldaIndY zp) s) (LdaEffect (s.mem.read (eaIndirectY zp s)) (s.pc + 1#16) s))

/-- STA, seven forms (R130). -/
def Obligations.StaCompletes : Prop :=
  ∀ s : State,
    (∀ zp, Answers (exec (.staZp zp) s) (StaEffect (eaZeroPage zp) (s.pc + 1#16) s)) ∧
    (∀ zp, Answers (exec (.staZpx zp) s) (StaEffect (eaZeroPageX zp s) (s.pc + 1#16) s)) ∧
    (∀ addr, Answers (exec (.staAbs addr) s) (StaEffect (eaAbsolute addr) (s.pc + 2#16) s)) ∧
    (∀ base, Answers (exec (.staAbsX base) s) (StaEffect (eaAbsoluteX base s) (s.pc + 2#16) s)) ∧
    (∀ base, Answers (exec (.staAbsY base) s) (StaEffect (eaAbsoluteY base s) (s.pc + 2#16) s)) ∧
    (∀ zp, Answers (exec (.staIndX zp) s) (StaEffect (eaIndirectX zp s) (s.pc + 1#16) s)) ∧
    (∀ zp, Answers (exec (.staIndY zp) s) (StaEffect (eaIndirectY zp s) (s.pc + 1#16) s))

/-- ADC, eight forms (`43_add_and.md` R140). -/
def Obligations.AdcCompletes : Prop :=
  ∀ s : State,
    (∀ imm, Answers (exec (.adcImm imm) s) (AdcEffect imm (s.pc + 1#16) s)) ∧
    (∀ zp, Answers (exec (.adcZp zp) s) (AdcEffect (s.mem.read (eaZeroPage zp)) (s.pc + 1#16) s)) ∧
    (∀ zp, Answers (exec (.adcZpx zp) s) (AdcEffect (s.mem.read (eaZeroPageX zp s)) (s.pc + 1#16) s)) ∧
    (∀ addr, Answers (exec (.adcAbs addr) s) (AdcEffect (s.mem.read (eaAbsolute addr)) (s.pc + 2#16) s)) ∧
    (∀ base, Answers (exec (.adcAbsX base) s) (AdcEffect (s.mem.read (eaAbsoluteX base s)) (s.pc + 2#16) s)) ∧
    (∀ base, Answers (exec (.adcAbsY base) s) (AdcEffect (s.mem.read (eaAbsoluteY base s)) (s.pc + 2#16) s)) ∧
    (∀ zp, Answers (exec (.adcIndX zp) s) (AdcEffect (s.mem.read (eaIndirectX zp s)) (s.pc + 1#16) s)) ∧
    (∀ zp, Answers (exec (.adcIndY zp) s) (AdcEffect (s.mem.read (eaIndirectY zp s)) (s.pc + 1#16) s))

/-- AND, eight forms (R150). -/
def Obligations.AndCompletes : Prop :=
  ∀ s : State,
    (∀ imm, Answers (exec (.andImm imm) s) (AndEffect imm (s.pc + 1#16) s)) ∧
    (∀ zp, Answers (exec (.andZp zp) s) (AndEffect (s.mem.read (eaZeroPage zp)) (s.pc + 1#16) s)) ∧
    (∀ zp, Answers (exec (.andZpx zp) s) (AndEffect (s.mem.read (eaZeroPageX zp s)) (s.pc + 1#16) s)) ∧
    (∀ addr, Answers (exec (.andAbs addr) s) (AndEffect (s.mem.read (eaAbsolute addr)) (s.pc + 2#16) s)) ∧
    (∀ base, Answers (exec (.andAbsX base) s) (AndEffect (s.mem.read (eaAbsoluteX base s)) (s.pc + 2#16) s)) ∧
    (∀ base, Answers (exec (.andAbsY base) s) (AndEffect (s.mem.read (eaAbsoluteY base s)) (s.pc + 2#16) s)) ∧
    (∀ zp, Answers (exec (.andIndX zp) s) (AndEffect (s.mem.read (eaIndirectX zp s)) (s.pc + 1#16) s)) ∧
    (∀ zp, Answers (exec (.andIndY zp) s) (AndEffect (s.mem.read (eaIndirectY zp s)) (s.pc + 1#16) s))

/-- ASL, the accumulator form and the four memory forms (`44_shift.md` R170). -/
def Obligations.AslCompletes : Prop :=
  ∀ s : State,
    Answers (exec .aslAcc s) (AslAccumulatorEffect s.pc s) ∧
    (∀ zp, Answers (exec (.aslZp zp) s) (AslMemoryEffect (eaZeroPage zp) (s.pc + 1#16) s)) ∧
    (∀ zp, Answers (exec (.aslZpx zp) s) (AslMemoryEffect (eaZeroPageX zp s) (s.pc + 1#16) s)) ∧
    (∀ addr, Answers (exec (.aslAbs addr) s) (AslMemoryEffect (eaAbsolute addr) (s.pc + 2#16) s)) ∧
    (∀ base, Answers (exec (.aslAbsX base) s) (AslMemoryEffect (eaAbsoluteX base s) (s.pc + 2#16) s))

/-- TAX, INX, SEI, SED and BRK (`45_transfer_increment.md` R180, R181, `46_flag_set.md` R185, R186, `47_halt.md` R190). -/
def Obligations.ImpliedFormsComplete : Prop :=
  ∀ s : State,
    Answers (exec .tax s) (XEffect s.a.toNat s.pc s) ∧
    Answers (exec .inx s) (XEffect ((s.x.toNat + 1) % 256) s.pc s) ∧
    Answers (exec .sei s) (FlagSetEffect 2 s.pc s) ∧
    Answers (exec .sed s) (FlagSetEffect 3 s.pc s) ∧
    Answers (exec .brk s) (HaltEffect s.pc s)

/-! ### The per-opcode rules: the step of a Running core with these bytes at PC -/

/-- LDA by its bytes in memory, with the spec's own address formulas (R120 to R128). -/
def Obligations.LdaSteps : Prop :=
  ∀ (s : State) (nn ll hh : Byte), s.runState = .running →
    (BytesAtPc s [0xA9#8, nn] → Answers (step s) (LdaEffect nn (s.pc + 2#16) s)) ∧
    (BytesAtPc s [0xA5#8, nn] → Answers (step s) (LdaEffect (s.mem.read (pageZero nn.toNat)) (s.pc + 2#16) s)) ∧
    (BytesAtPc s [0xB5#8, nn] →
      Answers (step s) (LdaEffect (s.mem.read (pageZero (nn.toNat + s.x.toNat))) (s.pc + 2#16) s)) ∧
    (BytesAtPc s [0xAD#8, ll, hh] → Answers (step s) (LdaEffect (s.mem.read (absolute ll hh 0)) (s.pc + 3#16) s)) ∧
    (BytesAtPc s [0xBD#8, ll, hh] →
      Answers (step s) (LdaEffect (s.mem.read (absolute ll hh s.x.toNat)) (s.pc + 3#16) s)) ∧
    (BytesAtPc s [0xB9#8, ll, hh] →
      Answers (step s) (LdaEffect (s.mem.read (absolute ll hh s.y.toNat)) (s.pc + 3#16) s)) ∧
    (BytesAtPc s [0xA1#8, nn] → Answers (step s) (LdaEffect (s.mem.read (indirectX nn s)) (s.pc + 2#16) s)) ∧
    (BytesAtPc s [0xB1#8, nn] → Answers (step s) (LdaEffect (s.mem.read (indirectY nn s)) (s.pc + 2#16) s))

/-- STA by its bytes in memory (R130 to R137). -/
def Obligations.StaSteps : Prop :=
  ∀ (s : State) (nn ll hh : Byte), s.runState = .running →
    (BytesAtPc s [0x85#8, nn] → Answers (step s) (StaEffect (pageZero nn.toNat) (s.pc + 2#16) s)) ∧
    (BytesAtPc s [0x95#8, nn] → Answers (step s) (StaEffect (pageZero (nn.toNat + s.x.toNat)) (s.pc + 2#16) s)) ∧
    (BytesAtPc s [0x8D#8, ll, hh] → Answers (step s) (StaEffect (absolute ll hh 0) (s.pc + 3#16) s)) ∧
    (BytesAtPc s [0x9D#8, ll, hh] → Answers (step s) (StaEffect (absolute ll hh s.x.toNat) (s.pc + 3#16) s)) ∧
    (BytesAtPc s [0x99#8, ll, hh] → Answers (step s) (StaEffect (absolute ll hh s.y.toNat) (s.pc + 3#16) s)) ∧
    (BytesAtPc s [0x81#8, nn] → Answers (step s) (StaEffect (indirectX nn s) (s.pc + 2#16) s)) ∧
    (BytesAtPc s [0x91#8, nn] → Answers (step s) (StaEffect (indirectY nn s) (s.pc + 2#16) s))

/-- ADC by its bytes in memory (R140 to R148). -/
def Obligations.AdcSteps : Prop :=
  ∀ (s : State) (nn ll hh : Byte), s.runState = .running →
    (BytesAtPc s [0x69#8, nn] → Answers (step s) (AdcEffect nn (s.pc + 2#16) s)) ∧
    (BytesAtPc s [0x65#8, nn] → Answers (step s) (AdcEffect (s.mem.read (pageZero nn.toNat)) (s.pc + 2#16) s)) ∧
    (BytesAtPc s [0x75#8, nn] →
      Answers (step s) (AdcEffect (s.mem.read (pageZero (nn.toNat + s.x.toNat))) (s.pc + 2#16) s)) ∧
    (BytesAtPc s [0x6D#8, ll, hh] → Answers (step s) (AdcEffect (s.mem.read (absolute ll hh 0)) (s.pc + 3#16) s)) ∧
    (BytesAtPc s [0x7D#8, ll, hh] →
      Answers (step s) (AdcEffect (s.mem.read (absolute ll hh s.x.toNat)) (s.pc + 3#16) s)) ∧
    (BytesAtPc s [0x79#8, ll, hh] →
      Answers (step s) (AdcEffect (s.mem.read (absolute ll hh s.y.toNat)) (s.pc + 3#16) s)) ∧
    (BytesAtPc s [0x61#8, nn] → Answers (step s) (AdcEffect (s.mem.read (indirectX nn s)) (s.pc + 2#16) s)) ∧
    (BytesAtPc s [0x71#8, nn] → Answers (step s) (AdcEffect (s.mem.read (indirectY nn s)) (s.pc + 2#16) s))

/-- AND by its bytes in memory (R150 to R158). -/
def Obligations.AndSteps : Prop :=
  ∀ (s : State) (nn ll hh : Byte), s.runState = .running →
    (BytesAtPc s [0x29#8, nn] → Answers (step s) (AndEffect nn (s.pc + 2#16) s)) ∧
    (BytesAtPc s [0x25#8, nn] → Answers (step s) (AndEffect (s.mem.read (pageZero nn.toNat)) (s.pc + 2#16) s)) ∧
    (BytesAtPc s [0x35#8, nn] →
      Answers (step s) (AndEffect (s.mem.read (pageZero (nn.toNat + s.x.toNat))) (s.pc + 2#16) s)) ∧
    (BytesAtPc s [0x2D#8, ll, hh] → Answers (step s) (AndEffect (s.mem.read (absolute ll hh 0)) (s.pc + 3#16) s)) ∧
    (BytesAtPc s [0x3D#8, ll, hh] →
      Answers (step s) (AndEffect (s.mem.read (absolute ll hh s.x.toNat)) (s.pc + 3#16) s)) ∧
    (BytesAtPc s [0x39#8, ll, hh] →
      Answers (step s) (AndEffect (s.mem.read (absolute ll hh s.y.toNat)) (s.pc + 3#16) s)) ∧
    (BytesAtPc s [0x21#8, nn] → Answers (step s) (AndEffect (s.mem.read (indirectX nn s)) (s.pc + 2#16) s)) ∧
    (BytesAtPc s [0x31#8, nn] → Answers (step s) (AndEffect (s.mem.read (indirectY nn s)) (s.pc + 2#16) s))

/-- ASL by its bytes in memory (R170 to R175). -/
def Obligations.AslSteps : Prop :=
  ∀ (s : State) (nn ll hh : Byte), s.runState = .running →
    (BytesAtPc s [0x0A#8] →
      Answers (step s) (AslAccumulatorEffect (s.pc + 1#16) s) ∧ stepAccesses s = [.read s.pc]) ∧
    (BytesAtPc s [0x06#8, nn] → Answers (step s) (AslMemoryEffect (pageZero nn.toNat) (s.pc + 2#16) s)) ∧
    (BytesAtPc s [0x16#8, nn] →
      Answers (step s) (AslMemoryEffect (pageZero (nn.toNat + s.x.toNat)) (s.pc + 2#16) s)) ∧
    (BytesAtPc s [0x0E#8, ll, hh] → Answers (step s) (AslMemoryEffect (absolute ll hh 0) (s.pc + 3#16) s)) ∧
    (BytesAtPc s [0x1E#8, ll, hh] → Answers (step s) (AslMemoryEffect (absolute ll hh s.x.toNat) (s.pc + 3#16) s))

/-- TAX and INX by their bytes in memory (R180, R181). -/
def Obligations.TransferAndIncrementSteps : Prop :=
  ∀ s : State, s.runState = .running →
    (BytesAtPc s [0xAA#8] →
      Answers (step s) (XEffect s.a.toNat (s.pc + 1#16) s) ∧ stepAccesses s = [.read s.pc]) ∧
    (BytesAtPc s [0xE8#8] →
      Answers (step s) (XEffect ((s.x.toNat + 1) % 256) (s.pc + 1#16) s) ∧ stepAccesses s = [.read s.pc])

/-- SEI and SED by their bytes in memory (R185, R186). -/
def Obligations.FlagSetSteps : Prop :=
  ∀ s : State, s.runState = .running →
    (BytesAtPc s [0x78#8] →
      Answers (step s) (FlagSetEffect 2 (s.pc + 1#16) s) ∧ stepAccesses s = [.read s.pc]) ∧
    (BytesAtPc s [0xF8#8] →
      Answers (step s) (FlagSetEffect 3 (s.pc + 1#16) s) ∧ stepAccesses s = [.read s.pc])

/-- BRK by its byte in memory: a pure halt (R190, `40_fetch_decode_execute.md` R84), after which a step request changes nothing
(R81; that the model answers the same state is notes/assumptions/1.md). -/
def Obligations.BrkSteps : Prop :=
  ∀ s : State, s.runState = .running → BytesAtPc s [0x00#8] →
    Answers (step s) (HaltEffect (s.pc + 1#16) s) ∧ stepAccesses s = [.read s.pc] ∧
    ∀ t, step s = .next t → step t = .next t ∧ stepAccesses t = []

/-! ### The arithmetic unit and the addresses -/

/-- Every function of `alu_with_flags`, as numbers (`10_state.md` R33). -/
def Obligations.AluMeetsItsTable : Prop :=
  ∀ (a b : Byte) (cin : Bool),
    (alu .pass a b cin).r = b ∧ (alu .pass a b cin).c = false ∧ (alu .pass a b cin).v = false ∧
    (alu .adc a b cin).r.toNat = (a.toNat + b.toNat + cin.toNat) % 256 ∧
    (alu .adc a b cin).c = decide (a.toNat + b.toNat + cin.toNat ≥ 256) ∧
    (alu .adc a b cin).v = ((a.getLsbD 7 == b.getLsbD 7) && ((alu .adc a b cin).r.getLsbD 7 != a.getLsbD 7)) ∧
    (∀ i, (alu .and a b cin).r.getLsbD i = (a.getLsbD i && b.getLsbD i)) ∧
    (alu .and a b cin).c = false ∧ (alu .and a b cin).v = false ∧
    (alu .asl a b cin).r.toNat = 2 * b.toNat % 256 ∧ (alu .asl a b cin).c = decide (b.toNat ≥ 128) ∧
    (alu .asl a b cin).v = false ∧
    (alu .inc a b cin).r.toNat = (b.toNat + 1) % 256 ∧ (alu .inc a b cin).c = false ∧
    (alu .inc a b cin).v = false ∧
    (∀ fn, (alu fn a b cin).z = decide ((alu fn a b cin).r.toNat = 0) ∧
      (alu fn a b cin).n = decide ((alu fn a b cin).r.toNat ≥ 128)) ∧
    (AluFn.pass.code = 0 ∧ AluFn.adc.code = 1 ∧ AluFn.and.code = 2 ∧ AluFn.asl.code = 3 ∧ AluFn.inc.code = 4)

/-- The Overflow predicate is signed overflow of the sum with the carry-in, and is bit 7 of `(a ^ r) & (m ^ r)` (both are what
R140 derives of its predicate). -/
def Obligations.AdcOverflowIsSignedOverflow : Prop :=
  ∀ (a m : Byte) (c : Bool),
    (alu .adc a m c).v = decide (a.toInt + m.toInt + c.toNat < -128 ∨ a.toInt + m.toInt + c.toNat > 127) ∧
    (alu .adc a m c).v = ((a ^^^ (alu .adc a m c).r) &&& (m ^^^ (alu .adc a m c).r)).getLsbD 7

/-- Each mode's effective address is the number its formula gives, from the bytes at PC, X, Y and memory
(`41_addressing_modes.md` R101 to R110). -/
def Obligations.AddressesMeetTheirFormulas : Prop :=
  ∀ s : State,
    resolve .immediate s = some s.pc ∧
    resolve .zeroPage s = some (pageZero (s.mem.read s.pc).toNat) ∧
    resolve .zeroPageX s = some (pageZero ((s.mem.read s.pc).toNat + s.x.toNat)) ∧
    resolve .absolute s = some (absolute (s.mem.read s.pc) (s.mem.read (s.pc + 1#16)) 0) ∧
    resolve .absoluteX s = some (absolute (s.mem.read s.pc) (s.mem.read (s.pc + 1#16)) s.x.toNat) ∧
    resolve .absoluteY s = some (absolute (s.mem.read s.pc) (s.mem.read (s.pc + 1#16)) s.y.toNat) ∧
    resolve .indirectX s = some (indirectX (s.mem.read s.pc) s) ∧
    resolve .indirectY s = some (indirectY (s.mem.read s.pc) s) ∧
    resolve .implied s = none ∧
    resolve .relative s =
      some (BitVec.ofInt 16 ((s.pc.toNat + 1 + (s.mem.read s.pc).toInt) % 65536))

/-- ZeroPageX wraps within 8 bits and never leaves page 0; its five opcodes have it, with one operand byte (R103). -/
def Obligations.ZeroPageXStaysInPageZero : Prop :=
  (∀ s : State, ∃ ea, resolve .zeroPageX s = some ea ∧
    ea.toNat = ((s.mem.read s.pc).toNat + s.x.toNat) % 256 ∧ ea.toNat < 0x0100) ∧
  ∀ op ∈ [0xB5#8, 0x95#8, 0x75#8, 0x35#8, 0x16#8],
    (lookup op).map (fun d => (d.mode, d.mode.len)) = some (Mode.zeroPageX, 1)

/-- The address an instruction computes from the operand it was decoded with is the one `resolve` reads from memory at PC
(R100). -/
def Obligations.OperandAddressIsResolvedAddress : Prop :=
  ∀ (s : State) (i : Instr), BytesAtPc s (encode i) →
    instrAddress i { s with pc := s.pc + 1#16 } = resolve i.mode { s with pc := s.pc + 1#16 }

/-! ### What no instruction does -/

/-- A is written by LDA, ADC, AND and ASL A alone, X by TAX and INX alone, Y by nothing (`10_state.md` R11, R12, R13). -/
def Obligations.RegistersHaveOnlyTheirWriters : Prop :=
  ∀ (i : Instr) (s t : State), exec i s = .next t →
    (i.family ∉ [Family.lda, .adc, .and] → i ≠ .aslAcc → t.a = s.a) ∧
    (i ≠ .tax → i ≠ .inx → t.x = s.x) ∧ t.y = s.y

/-- An instruction changes only the flags its family's row lists (R14, R21). -/
def Obligations.FlagsHaveOnlyTheirWriters : Prop :=
  ∀ (i : Instr) (s t : State), exec i s = .next t → KeepsFlagsBut (writtenFlags i.family) s t

/-- The reserved bits: no instruction writes them, reset zeroes the whole of P, and they read 0 in every reachable state (R20). -/
def Obligations.ReservedFlagBitsStayZero : Prop :=
  (∀ (i : Instr) (s t : State), exec i s = .next t →
    t.p.getLsbD 4 = s.p.getLsbD 4 ∧ t.p.getLsbD 5 = s.p.getLsbD 5) ∧
  (∀ s : State, (resetCore s).p = 0) ∧
  ∀ s : State, Reachable s → s.p.getLsbD 4 = false ∧ s.p.getLsbD 5 = false

/-- `MemWrite` changes one location, every location accepts it, and of the instructions only STA and the memory forms of ASL
write, at their effective address alone (`20_memory.md` R44). -/
def Obligations.MemoryHasOnlyItsWriters : Prop :=
  (∀ (m : Memory) (addr b : Word) (v : Byte), (m.write addr v).read b = if b = addr then v else m.read b) ∧
  ∀ (i : Instr) (s t : State), exec i s = .next t →
    ∀ b : Word, (Stores i → instrAddress i s ≠ some b) → t.mem.read b = s.mem.read b

/-- `Execute(d)` never writes the fault latch, moves PC by the operand length and nothing else, and only the halt writes the run
state (`40_fetch_decode_execute.md` R80, R87). -/
def Obligations.NoControlTransfer : Prop :=
  ∀ (i : Instr) (s t : State), exec i s = .next t →
    t.pc = s.pc + BitVec.ofNat 16 ((encode i).length - 1) ∧ t.faultCause = s.faultCause ∧
    (i ≠ .brk → t.runState = s.runState)

/-- InterruptDisable and Decimal have no effect on anything: cores that differ in nothing else still differ in nothing else
after a step (`10_state.md` R18, R19). -/
def Obligations.InterruptAndDecimalFlagsAreInert : Prop :=
  ∀ (s s' t t' : State), SameButInertFlags s s' → step s = .next t → step s' = .next t' → SameButInertFlags t t'

/-! ### The accesses of a step -/

/-- The accesses of one step, in order: the table of `20_memory.md` R50, with the addresses as numbers. -/
def Obligations.AccessesFollowTheTable : Prop :=
  ∀ s : State, s.runState = .running →
    (s.mem.read s.pc ∉ implementedOpcodes → stepAccesses s = [.read s.pc]) ∧
    (s.mem.read s.pc ∈ 0x00#8 :: oneByteOpcodes → stepAccesses s = [.read s.pc]) ∧
    (s.mem.read s.pc ∈ [0xA9#8, 0x69#8, 0x29#8] → stepAccesses s = [.read s.pc, .read (s.pc + 1#16)]) ∧
    AccessLine s [0xA5#8, 0x65#8, 0x25#8] 0x85#8 [0x06#8] [.read (s.pc + 1#16)]
      (pageZero (s.mem.read (s.pc + 1#16)).toNat) ∧
    AccessLine s [0xB5#8, 0x75#8, 0x35#8] 0x95#8 [0x16#8] [.read (s.pc + 1#16)]
      (pageZero ((s.mem.read (s.pc + 1#16)).toNat + s.x.toNat)) ∧
    AccessLine s [0xAD#8, 0x6D#8, 0x2D#8] 0x8D#8 [0x0E#8] [.read (s.pc + 1#16), .read (s.pc + 2#16)]
      (absolute (s.mem.read (s.pc + 1#16)) (s.mem.read (s.pc + 2#16)) 0) ∧
    AccessLine s [0xBD#8, 0x7D#8, 0x3D#8] 0x9D#8 [0x1E#8] [.read (s.pc + 1#16), .read (s.pc + 2#16)]
      (absolute (s.mem.read (s.pc + 1#16)) (s.mem.read (s.pc + 2#16)) s.x.toNat) ∧
    AccessLine s [0xB9#8, 0x79#8, 0x39#8] 0x99#8 [] [.read (s.pc + 1#16), .read (s.pc + 2#16)]
      (absolute (s.mem.read (s.pc + 1#16)) (s.mem.read (s.pc + 2#16)) s.y.toNat) ∧
    AccessLine s [0xA1#8, 0x61#8, 0x21#8] 0x81#8 []
      [.read (s.pc + 1#16), .read (pageZero ((s.mem.read (s.pc + 1#16)).toNat + s.x.toNat)),
        .read (pageZero ((s.mem.read (s.pc + 1#16)).toNat + s.x.toNat + 1))]
      (indirectX (s.mem.read (s.pc + 1#16)) s) ∧
    AccessLine s [0xB1#8, 0x71#8, 0x31#8] 0x91#8 []
      [.read (s.pc + 1#16), .read (pageZero (s.mem.read (s.pc + 1#16)).toNat),
        .read (pageZero ((s.mem.read (s.pc + 1#16)).toNat + 1))]
      (indirectY (s.mem.read (s.pc + 1#16)) s)

/-- The store after a step is the store before it with the step's listed writes performed, in order (R50, R51). -/
def Obligations.StoreAfterStepIsItsListedWrites : Prop :=
  ∀ s t : State, step s = .next t → t.mem = (stepAccesses s).foldl (fun m access => access.apply m) s.mem

/-- A step depends on no byte of memory but those it lists as read: cores with the same registers, whose stores agree on those
bytes, make the same accesses and end with the same registers (R50, R51). -/
def Obligations.StepDependsOnlyOnListedReads : Prop :=
  ∀ s s' t t' : State, SameButStore s s' → (∀ b, Access.read b ∈ stepAccesses s → s'.mem.read b = s.mem.read b) →
    step s = .next t → step s' = .next t' → stepAccesses s' = stepAccesses s ∧ SameButStore t t'

/-! ### Invariants, reset, load and the end of a run -/

/-- Every step keeps the invariant: the store's canonical form, Y and the reserved bits 0, a latched fault halts (R13, R20,
R24). -/
def Obligations.StepKeepsTheInvariant : Prop := ∀ s t : State, Inv s → step s = .next t → Inv t

/-- The model's reset state is the reset of its power-on state (notes/assumptions/2.md), and the invariant holds there. -/
def Obligations.ResetStateMeetsTheInvariant : Prop := State.reset = resetCore State.powerOn ∧ Inv State.reset

/-- The invariant holds in every state reached from power-on by any sequence of loads, resets and steps. -/
def Obligations.ReachableStatesMeetTheInvariant : Prop := ∀ s : State, Reachable s → Inv s

/-- However many steps are requested of a Halted core, clean or faulted, it stays as it is (`60_exceptions.md` R210; the same
state as an answer: notes/assumptions/1.md). -/
def Obligations.HaltedCoreStaysAsItIs : Prop :=
  ∀ (k : Nat) (s : State), s.runState = .halted → Sys2Proof.core.run k s = .next s

/-- `run` adds nothing to the step: it always answers the state after the last of its steps, and once that is Halted no longer
run goes further (`40_fetch_decode_execute.md` R89; that the host's run stops there too is notes/assumptions/1.md,
that a step which takes the exception answers a state notes/assumptions/6.md, and `run` as held requests notes/assumptions/9.md). -/
def Obligations.RunStepsUntilHalted : Prop :=
  ∀ (n : Nat) (s : State), run n s = Sys2Proof.core.run n s ∧
    Answers (run n s) fun t =>
      (t.runState = .halted → ∀ k, run (n + k) s = .next t) ∧
      (t.runState = .running → ∀ k, run (n + k) s = run k t)

/-- The reset procedure, from any state (`70_reset_and_hazards.md` R232). -/
def Obligations.ResetMeetsItsProcedure : Prop :=
  ∀ s : State,
    (resetCore s).a = 0x00#8 ∧ (resetCore s).x = 0x00#8 ∧ (resetCore s).y = 0x00#8 ∧ (resetCore s).p = 0x00#8 ∧
    (resetCore s).pc.toNat = (s.mem.read 0xFFFC#16).toNat + 256 * (s.mem.read 0xFFFD#16).toNat ∧
    (resetCore s).faultCause = .none ∧ (resetCore s).runState = .running ∧ KeepsStore s (resetCore s) ∧
    resetAccesses = [.read 0xFFFC#16, .read 0xFFFD#16]

/-- Reset is idempotent (R233). -/
def Obligations.ResetTwiceIsResetOnce : Prop := ∀ s : State, resetCore (resetCore s) = resetCore s

/-- The values of `10_state.md` R27 after power-on and after reset. -/
def Obligations.PowerOnAndResetValues : Prop :=
  (State.powerOn.a = 0 ∧ State.powerOn.x = 0 ∧ State.powerOn.y = 0 ∧ State.powerOn.p = 0 ∧ State.powerOn.pc = 0 ∧
    State.powerOn.runState = .halted ∧ State.powerOn.faultCause.code = 0 ∧ ∀ b, State.powerOn.mem.read b = 0x00#8) ∧
  (∀ s : State, (resetCore s).a = 0 ∧ (resetCore s).x = 0 ∧ (resetCore s).y = 0 ∧ (resetCore s).p = 0 ∧
    (resetCore s).pc = s.mem.read16 0xFFFC#16 0xFFFD#16 ∧ (resetCore s).runState = .running ∧
    (resetCore s).faultCause.code = 0 ∧ KeepsStore s (resetCore s))

/-- A reset request is honoured in either run state, and before a step request that comes with it (`60_exceptions.md` R207,
R231). -/
def Obligations.ResetRequestComesFirst : Prop :=
  ∀ s : State, serve { resetReq := true, stepReq := true } s = step (resetCore s) ∧
    serve { resetReq := true, stepReq := false } s = .next (resetCore s) ∧
    serve { resetReq := false, stepReq := true } s = step s ∧
    serve { resetReq := false, stepReq := false } s = .next s

/-- Without a reset request nothing leaves Halted: a load changes the store alone, a request changes nothing (`10_state.md`
R23, `60_exceptions.md` R210; notes/assumptions/1.md). -/
def Obligations.OnlyResetLeavesHalted : Prop :=
  ∀ s t : State, s.runState = .halted →
    (∀ req, req.resetReq = false → serve req s = .next t → t = s) ∧
    (∀ bytes, load bytes s = .next t → SameButStore s t)

/-- The loader's interface: the program at 0x8000, the vector written last, every other byte and every register as before; a
program of more than 32768 bytes is rejected (R236, R237). -/
def Obligations.LoadMeetsItsInterface : Prop :=
  ∀ (bytes : List Byte) (s : State), s.runState = .halted →
    (bytes.length ≤ 32768 → Answers (load bytes s) fun t => SameButStore s t ∧
      ∀ b : Word, t.mem.read b =
        if b = 0xFFFC#16 then 0x00#8
        else if b = 0xFFFD#16 then 0x80#8
        else if 0x8000 ≤ b.toNat ∧ b.toNat < 0x8000 + bytes.length then bytes.getD (b.toNat - 0x8000) 0#8
        else s.mem.read b) ∧
    (bytes.length > 32768 → load bytes s = .refused (.programTooLarge bytes.length))

/-- A load of any accepted length, then a reset, starts the core at 0x8000 (the source's round trip, S7 of
`95_test_vectors.md`). -/
def Obligations.LoadThenResetStartsAtTheProgram : Prop :=
  ∀ (bytes : List Byte) (s : State), s.runState = .halted → bytes.length ≤ 32768 →
    Answers (load bytes s) fun t => (resetCore t).pc = 0x8000#16 ∧ (resetCore t).runState = .running

/-- How a run ended: a clean halt fetched 0x00 at `PC - 1`, a faulted stop a byte outside the table
(`40_fetch_decode_execute.md` R85, R90). -/
def Obligations.TheLastOpcodeTellsHowTheRunEnded : Prop :=
  ∀ s t : State, s.runState = .running → s.faultCause = .none → step s = .next t → t.runState = .halted →
    (t.haltedCleanly ∧ t.mem.read (t.pc - 1#16) = 0x00#8) ∨
    (t.stoppedInFault ∧ t.mem.read (t.pc - 1#16) ∉ implementedOpcodes)

/-- The model's own form of memory: two canonical stores that read the same at every address are the same list. -/
def Obligations.StoreIsDeterminedByItsReads : Prop :=
  ∀ m m' : Memory, m.wf = true → m'.wf = true → (∀ b : Word, m.read b = m'.read b) → m = m'

/-- The output ports show the run state and the cause code, and the debug ports A, X, Y, P and PC (`10_state.md` R24, R36, R37):
`halted` with code 0 is a clean halt, with code 1 a faulted stop. -/
def Obligations.OutputsTellHowTheRunEnded : Prop :=
  ∀ s : State,
    (s.haltedCleanly ↔ s.outputs.halted = true ∧ s.outputs.faultCause = 0) ∧
    (s.stoppedInFault ↔ s.outputs.halted = true ∧ s.outputs.faultCause = 1) ∧
    s.outputs.dbgA = s.a ∧ s.outputs.dbgX = s.x ∧ s.outputs.dbgY = s.y ∧ s.outputs.dbgP = s.p ∧ s.outputs.dbgPc = s.pc

/-- The model's own entry for a table word: the step after `withFetchWord` runs the instruction whose bytes the word holds, and
the words decode as the bytes do. -/
def Obligations.FetchWordRunsItsInstruction : Prop :=
  ∀ (s : State) (i : Instr) (nbits w : Nat) (rest : List Byte), tableWordBytes nbits w = encode i ++ rest →
    decodeTableWord nbits w = some i ∧
    step (s.withFetchWord nbits w) =
      exec i { s.withFetchWord nbits w with pc := s.pc + 1#16 }
end

