-- ==== Sys2Proof/Laws/Decode.lean ====
section
/-! SUPPORT. The decoder's small laws: a table entry is well formed, and a well-formed entry has an instruction. -/

namespace Sys2Proof

/-- The table as built is well formed: no opcode byte stands twice, every entry is a pair of R111 (R69, R70). -/
theorem opcodeTable_wellFormed : wellFormedTable opcodeTable = true := by decide

/-- What the decoder answers for an opcode is an entry of the table. -/
theorem lookup_mem {op : Byte} {d : Descriptor} (h : lookup op = some d) : (op, d) ∈ opcodeTable := by
  unfold lookup at h
  obtain ⟨row, hrow, rfl⟩ := Option.map_eq_some_iff.mp h
  have hop : row.1 = op := by simpa using List.find?_some hrow
  simpa [← hop] using List.mem_of_find?_eq_some hrow

theorem lookup_wellFormed {op : Byte} {d : Descriptor} (h : lookup op = some d) : d.wellFormed = true := by
  have hall := opcodeTable_wellFormed
  rw [wellFormedTable, Bool.and_eq_true, List.all_eq_true] at hall
  exact hall.2 (op, d) (lookup_mem h)

/-- Every well-formed entry has an instruction, and it is an instance of that entry (R70). -/
theorem instrOf_wellFormed {d : Descriptor} (h : d.wellFormed = true) (b0 b1 : Byte) :
    ∃ i, instrOf d b0 b1 = some i ∧ i.descriptor = d := by
  obtain ⟨family, mode, accForm⟩ := d
  cases family <;> cases mode <;> cases accForm <;>
    first
      | exact ⟨_, rfl, rfl⟩
      | exact absurd h (by decide)

theorem instrOf_lookup {op : Byte} {d : Descriptor} (h : lookup op = some d) (b0 b1 : Byte) :
    ∃ i, instrOf d b0 b1 = some i ∧ i.descriptor = d := instrOf_wellFormed (lookup_wellFormed h) b0 b1

theorem operandLength_lookup {op : Byte} {d : Descriptor} (h : lookup op = some d) : operandLength op = d.mode.len := by
  simp [operandLength, h]

/-- With as many operand bytes as the mode has, the operands are there. -/
theorem takeOperands_exact (mode : Mode) (bytes : List Byte) (h : bytes.length = mode.len) :
    ∃ b0 b1, takeOperands mode.len bytes = some (b0, b1, []) := by
  cases mode <;> simp only [Mode.len] at h ⊢ <;>
    (rcases bytes with _ | ⟨b0, _ | ⟨b1, _ | ⟨b2, bytes⟩⟩⟩ <;> simp_all [takeOperands])

end Sys2Proof
end

