-- ==== Sys2Proof/Laws/Flags.lean ====
section
/-! SUPPORT. The laws of the flag register and of the arithmetic unit. -/

namespace Sys2Proof.Machine

/-- Writing a flag writes its bit and keeps the other bits of P (R14), the reserved ones among them. -/
theorem getLsbD_setFlag (p : Byte) (f : Flag) (b : Bool) (i : Nat) (hi : i < 8) :
    (setFlag p f b).getLsbD i = if i = f.bit then b else p.getLsbD i := by
  have hcases : i = 0 ∨ i = 1 ∨ i = 2 ∨ i = 3 ∨ i = 4 ∨ i = 5 ∨ i = 6 ∨ i = 7 := by omega
  rcases hcases with rfl | rfl | rfl | rfl | rfl | rfl | rfl | rfl <;> cases f <;> cases b <;>
    simp [setFlag, Flag.bit]

theorem Flag.bit_lt (f : Flag) : f.bit < 8 := by cases f <;> decide

theorem Flag.bit_inj {f g : Flag} (h : f.bit = g.bit) : f = g := by
  cases f <;> cases g <;> first | rfl | (exact absurd h (by decide))

/-- A flag after a flag write. -/
theorem getFlag_setFlag (p : Byte) (f g : Flag) (b : Bool) :
    getFlag (setFlag p f b) g = if g = f then b else getFlag p g := by
  rw [getFlag, getLsbD_setFlag _ _ _ _ g.bit_lt]
  by_cases h : g = f
  · simp [h]
  · have hb : g.bit ≠ f.bit := fun e => h (Flag.bit_inj e)
    simp [h, hb, getFlag]

/-- Bit i of P after a flag write, in the form simp reads bits in. -/
theorem getElem_setFlag (p : Byte) (f : Flag) (b : Bool) (i : Nat) (hi : i < 8) :
    (setFlag p f b)[i] = if i = f.bit then b else p[i] := by
  simpa only [BitVec.getLsbD_eq_getElem hi] using getLsbD_setFlag p f b i hi

@[simp] theorem getElem_setFlag_C (p : Byte) (b : Bool) (i : Nat) (hi : i < 8) :
    (setFlag p .C b)[i] = if i = 0 then b else p[i] := getElem_setFlag p .C b i hi

@[simp] theorem getElem_setFlag_V (p : Byte) (b : Bool) (i : Nat) (hi : i < 8) :
    (setFlag p .V b)[i] = if i = 6 then b else p[i] := getElem_setFlag p .V b i hi

@[simp] theorem getElem_setFlag_I (p : Byte) (b : Bool) (i : Nat) (hi : i < 8) :
    (setFlag p .I b)[i] = if i = 2 then b else p[i] := getElem_setFlag p .I b i hi

@[simp] theorem getElem_setFlag_D (p : Byte) (b : Bool) (i : Nat) (hi : i < 8) :
    (setFlag p .D b)[i] = if i = 3 then b else p[i] := getElem_setFlag p .D b i hi

/-- Zero and Negative written, every other bit kept (R17). -/
@[simp] theorem getElem_setZN (p : Byte) (z n : Bool) (i : Nat) (hi : i < 8) :
    (setZN p z n)[i] = if i = 7 then n else if i = 1 then z else p[i] := by
  rw [setZN, getElem_setFlag _ _ _ _ hi, getElem_setFlag _ _ _ _ hi]
  rfl

@[simp] theorem getFlag_C (p : Byte) : getFlag p .C = p[0] := rfl

@[simp] theorem alu_r (fn : AluFn) (a b : Byte) (cin : Bool) : (alu fn a b cin).r = aluResult fn a b cin := rfl

@[simp] theorem alu_c (fn : AluFn) (a b : Byte) (cin : Bool) : (alu fn a b cin).c = aluCarry fn a b cin := rfl

@[simp] theorem alu_v (fn : AluFn) (a b : Byte) (cin : Bool) : (alu fn a b cin).v = aluOverflow fn a b cin := rfl

@[simp] theorem alu_z (fn : AluFn) (a b : Byte) (cin : Bool) : (alu fn a b cin).z = (aluResult fn a b cin == 0#8) := rfl

@[simp] theorem alu_n (fn : AluFn) (a b : Byte) (cin : Bool) : (alu fn a b cin).n = (aluResult fn a b cin)[7] := rfl

@[simp] theorem aluResult_pass (a b : Byte) (cin : Bool) : aluResult .pass a b cin = b := rfl

@[simp] theorem aluResult_and (a b : Byte) (cin : Bool) : aluResult .and a b cin = a &&& b := rfl

@[simp] theorem aluResult_asl (a b : Byte) (cin : Bool) : aluResult .asl a b cin = b <<< 1 := rfl

@[simp] theorem aluResult_inc (a b : Byte) (cin : Bool) : aluResult .inc a b cin = b + 1#8 := rfl

/-- ADC's result is the exact sum modulo 256 (R140). -/
@[simp] theorem aluResult_adc_toNat (a b : Byte) (cin : Bool) :
    (aluResult .adc a b cin).toNat = (a.toNat + b.toNat + cin.toNat) % 256 := by
  simp [aluResult, addSum]

@[simp] theorem aluCarry_asl (a b : Byte) (cin : Bool) : aluCarry .asl a b cin = b[7] := rfl

@[simp] theorem aluCarry_adc (a b : Byte) (cin : Bool) :
    aluCarry .adc a b cin = decide (a.toNat + b.toNat + cin.toNat > 255) := rfl

end Sys2Proof.Machine
end

