-- ==== Sys2Proof/Laws/Memory.lean ====
section
/-! SUPPORT. The laws of the memory operations: a read after a write, and the canonical form, which every operation keeps. -/

namespace Sys2Proof.Machine

theorem Memory.readAt_drop (m : Memory) (a b : Nat) :
    Memory.readAt (Memory.drop m a) b = if b = a then Config.unlistedByte else Memory.readAt m b := by
  induction m with
  | nil => simp [Memory.drop, Memory.readAt]
  | cons cell m ih =>
    obtain ⟨k, v⟩ := cell
    have hd : Memory.drop ((k, v) :: m) a = if k = a then Memory.drop m a else (k, v) :: Memory.drop m a := by
      by_cases h : k = a <;> simp [Memory.drop, h]
    rw [hd]
    by_cases hka : k = a
    · subst hka
      rw [if_pos rfl, ih]
      by_cases hb : b = k
      · simp [hb]
      · simp [hb, Memory.readAt, Ne.symm hb]
    · rw [if_neg hka]
      by_cases hkb : k = b
      · subst hkb; simp [Memory.readAt, hka]
      · simp [Memory.readAt, hkb, ih]

/-- Inserting an entry for a location that has none: that location reads the new byte, every other as before. -/
theorem Memory.readAt_insert (m : Memory) (a b : Nat) (v : Byte) (h : ∀ cell ∈ m, cell.1 ≠ a) :
    Memory.readAt (Memory.insert m a v) b = if b = a then v else Memory.readAt m b := by
  induction m with
  | nil =>
    by_cases hb : b = a
    · simp [Memory.insert, Memory.readAt, hb]
    · simp [Memory.insert, Memory.readAt, hb, Ne.symm hb]
  | cons cell m ih =>
    obtain ⟨k, w⟩ := cell
    have hka : k ≠ a := h (k, w) (by simp)
    have ih' := ih fun c hc => h c (by simp [hc])
    by_cases hlt : a < k
    · rw [Memory.insert, if_pos hlt]
      by_cases hb : b = a
      · simp [Memory.readAt, hb]
      · simp [Memory.readAt, hb, Ne.symm hb]
    · rw [Memory.insert, if_neg hlt]
      by_cases hkb : k = b
      · subst hkb; simp [Memory.readAt, hka]
      · simp [Memory.readAt, hkb, ih']

theorem Memory.drop_ne (m : Memory) (a : Nat) : ∀ cell ∈ Memory.drop m a, cell.1 ≠ a := by
  intro cell hc
  simpa using (List.mem_filter.mp hc).2

/-- A read after a write (R43, R44): the written location holds the byte, every other what it held. Of every list, canonical
or not. -/
theorem Memory.read_write (m : Memory) (addr b : Word) (v : Byte) :
    (m.write addr v).read b = if b = addr then v else m.read b := by
  have hne : b.toNat = addr.toNat ↔ b = addr := BitVec.toNat_inj
  unfold Memory.write Memory.read
  split
  · next hv => rw [Memory.readAt_drop]; by_cases h : b = addr <;> simp [hne, h, hv]
  · rw [Memory.readAt_insert _ _ _ _ (Memory.drop_ne m addr.toNat), Memory.readAt_drop]
    by_cases h : b = addr <;> simp [hne, h]

@[simp] theorem Memory.read_write_same (m : Memory) (addr : Word) (v : Byte) : (m.write addr v).read addr = v := by
  simp [Memory.read_write]

theorem Memory.read_write_other (m : Memory) {addr b : Word} (v : Byte) (h : b ≠ addr) :
    (m.write addr v).read b = m.read b := by
  simp [Memory.read_write, h]

/-- A lower bound may be lowered. -/
theorem Memory.wfFrom_mono {m : Memory} {low low' : Nat} (h : low' ≤ low) (hw : Memory.wfFrom low m = true) :
    Memory.wfFrom low' m = true := by
  cases m with
  | nil => rfl
  | cons cell m =>
    obtain ⟨k, v⟩ := cell
    simp only [Memory.wfFrom, Bool.and_eq_true, decide_eq_true_eq] at hw ⊢
    exact ⟨⟨⟨le_trans h hw.1.1.1, hw.1.1.2⟩, hw.1.2⟩, hw.2⟩

theorem Memory.wfFrom_drop (m : Memory) (a low : Nat) (hw : Memory.wfFrom low m = true) :
    Memory.wfFrom low (Memory.drop m a) = true := by
  induction m generalizing low with
  | nil => simp [Memory.drop, Memory.wfFrom]
  | cons cell m ih =>
    obtain ⟨k, v⟩ := cell
    simp only [Memory.wfFrom, Bool.and_eq_true, decide_eq_true_eq] at hw
    have ih' := ih (k + 1) hw.2
    by_cases hka : k = a
    · have : Memory.drop ((k, v) :: m) a = Memory.drop m a := by simp [Memory.drop, hka]
      rw [this]
      exact Memory.wfFrom_mono (by omega) ih'
    · have : Memory.drop ((k, v) :: m) a = (k, v) :: Memory.drop m a := by simp [Memory.drop, hka]
      rw [this]
      simp only [Memory.wfFrom, Bool.and_eq_true, decide_eq_true_eq]
      exact ⟨hw.1, ih'⟩

theorem Memory.wfFrom_insert (m : Memory) (a low : Nat) (v : Byte) (hl : low ≤ a) (ha : a < Config.memSize)
    (hv : v ≠ Config.unlistedByte) (hne : ∀ cell ∈ m, cell.1 ≠ a) (hw : Memory.wfFrom low m = true) :
    Memory.wfFrom low (Memory.insert m a v) = true := by
  induction m generalizing low with
  | nil => simp [Memory.insert, Memory.wfFrom, hl, ha, hv]
  | cons cell m ih =>
    obtain ⟨k, w⟩ := cell
    have hka : k ≠ a := hne (k, w) (by simp)
    simp only [Memory.wfFrom, Bool.and_eq_true, decide_eq_true_eq] at hw
    by_cases hlt : a < k
    · rw [Memory.insert, if_pos hlt]
      simp only [Memory.wfFrom, Bool.and_eq_true, decide_eq_true_eq, bne_iff_ne, ne_eq]
      exact ⟨⟨⟨hl, ha⟩, hv⟩, ⟨⟨hlt, hw.1.1.2⟩, by simpa using hw.1.2⟩, hw.2⟩
    · rw [Memory.insert, if_neg hlt]
      simp only [Memory.wfFrom, Bool.and_eq_true, decide_eq_true_eq]
      exact ⟨hw.1, ih (k + 1) (by omega) (fun c hc => hne c (by simp [hc])) hw.2⟩

/-- A write keeps the canonical form. -/
theorem Memory.write_wf (m : Memory) (addr : Word) (v : Byte) (hw : m.wf = true) : (m.write addr v).wf = true := by
  unfold Memory.write
  split
  · exact Memory.wfFrom_drop m addr.toNat 0 hw
  · next hv =>
    exact Memory.wfFrom_insert _ _ _ _ (Nat.zero_le _) (by have := addr.isLt; simpa [Config.memSize] using this) hv
      (Memory.drop_ne m addr.toNat) (Memory.wfFrom_drop m addr.toNat 0 hw)

/-- Writing a sequence of bytes keeps the canonical form. -/
theorem Memory.writeBytes_wf (m : Memory) (addr : Word) (bytes : List Byte) (hw : m.wf = true) :
    (m.writeBytes addr bytes).wf = true := by
  induction bytes generalizing m addr with
  | nil => exact hw
  | cons b bs ih => exact ih _ _ (Memory.write_wf m addr b hw)

@[simp] theorem Memory.wf_nil : Memory.wf [] = true := rfl

@[simp] theorem Memory.read_nil (addr : Word) : Memory.read [] addr = Config.unlistedByte := rfl

/-- What a run of bytes written at increasing addresses leaves, when it does not come round to its start. -/
theorem Memory.read_writeBytes (m : Memory) (addr b : Word) (bytes : List Byte) (hlen : bytes.length ≤ 65536) :
    (m.writeBytes addr bytes).read b =
      if (b - addr).toNat < bytes.length then bytes.getD (b - addr).toNat 0 else m.read b := by
  induction bytes generalizing m addr with
  | nil => simp [Memory.writeBytes]
  | cons c cs ih =>
    simp only [List.length_cons] at hlen
    rw [Memory.writeBytes, ih _ _ (by omega), Memory.read_write]
    by_cases hb : b = addr
    · subst hb
      have hneg : (b - (b + 1#16)).toNat = 65535 := by bv_omega
      have h0 : (b - b).toNat = 0 := by bv_omega
      rw [hneg, h0, if_neg (by omega)]
      simp
    · have hstep : (b - addr).toNat = (b - (addr + 1#16)).toNat + 1 := by
        have : b.toNat ≠ addr.toNat := fun h => hb (BitVec.toNat_inj.mp h)
        bv_omega
      rw [hstep, if_neg hb]
      simp

/-- As many bytes are read as asked for. -/
@[simp] theorem Memory.readBytes_length (m : Memory) (addr : Word) (n : Nat) : (m.readBytes addr n).length = n := by
  induction n generalizing addr with
  | zero => rfl
  | succ n ih => simp [Memory.readBytes, ih]

@[simp] theorem Memory.readBytes_zero (m : Memory) (addr : Word) : m.readBytes addr 0 = [] := rfl

@[simp] theorem Memory.readBytes_one (m : Memory) (addr : Word) : m.readBytes addr 1 = [m.read addr] := rfl

@[simp] theorem Memory.readBytes_two (m : Memory) (addr : Word) :
    m.readBytes addr 2 = [m.read addr, m.read (addr + 1#16)] := rfl

end Sys2Proof.Machine
end

