-- ==== Sys2Proof/Laws/State.lean ====
section
/-! SUPPORT. What each update of State does to each field, once, so that no proof unfolds a record update. -/

namespace Sys2Proof.Machine

variable (s : State)

@[simp] theorem State.setA_a (v : Byte) : (s.setA v).a = v := rfl
@[simp] theorem State.setA_x (v : Byte) : (s.setA v).x = s.x := rfl
@[simp] theorem State.setA_y (v : Byte) : (s.setA v).y = s.y := rfl
@[simp] theorem State.setA_p (v : Byte) : (s.setA v).p = s.p := rfl
@[simp] theorem State.setA_pc (v : Byte) : (s.setA v).pc = s.pc := rfl
@[simp] theorem State.setA_runState (v : Byte) : (s.setA v).runState = s.runState := rfl
@[simp] theorem State.setA_faultCause (v : Byte) : (s.setA v).faultCause = s.faultCause := rfl
@[simp] theorem State.setA_mem (v : Byte) : (s.setA v).mem = s.mem := rfl

@[simp] theorem State.setX_a (v : Byte) : (s.setX v).a = s.a := rfl
@[simp] theorem State.setX_x (v : Byte) : (s.setX v).x = v := rfl
@[simp] theorem State.setX_y (v : Byte) : (s.setX v).y = s.y := rfl
@[simp] theorem State.setX_p (v : Byte) : (s.setX v).p = s.p := rfl
@[simp] theorem State.setX_pc (v : Byte) : (s.setX v).pc = s.pc := rfl
@[simp] theorem State.setX_runState (v : Byte) : (s.setX v).runState = s.runState := rfl
@[simp] theorem State.setX_faultCause (v : Byte) : (s.setX v).faultCause = s.faultCause := rfl
@[simp] theorem State.setX_mem (v : Byte) : (s.setX v).mem = s.mem := rfl

@[simp] theorem State.setP_a (v : Byte) : (s.setP v).a = s.a := rfl
@[simp] theorem State.setP_x (v : Byte) : (s.setP v).x = s.x := rfl
@[simp] theorem State.setP_y (v : Byte) : (s.setP v).y = s.y := rfl
@[simp] theorem State.setP_p (v : Byte) : (s.setP v).p = v := rfl
@[simp] theorem State.setP_pc (v : Byte) : (s.setP v).pc = s.pc := rfl
@[simp] theorem State.setP_runState (v : Byte) : (s.setP v).runState = s.runState := rfl
@[simp] theorem State.setP_faultCause (v : Byte) : (s.setP v).faultCause = s.faultCause := rfl
@[simp] theorem State.setP_mem (v : Byte) : (s.setP v).mem = s.mem := rfl

@[simp] theorem State.setPc_a (v : Word) : (s.setPc v).a = s.a := rfl
@[simp] theorem State.setPc_x (v : Word) : (s.setPc v).x = s.x := rfl
@[simp] theorem State.setPc_y (v : Word) : (s.setPc v).y = s.y := rfl
@[simp] theorem State.setPc_p (v : Word) : (s.setPc v).p = s.p := rfl
@[simp] theorem State.setPc_pc (v : Word) : (s.setPc v).pc = v := rfl
@[simp] theorem State.setPc_runState (v : Word) : (s.setPc v).runState = s.runState := rfl
@[simp] theorem State.setPc_faultCause (v : Word) : (s.setPc v).faultCause = s.faultCause := rfl
@[simp] theorem State.setPc_mem (v : Word) : (s.setPc v).mem = s.mem := rfl

@[simp] theorem State.setRunState_a (v : RunState) : (s.setRunState v).a = s.a := rfl
@[simp] theorem State.setRunState_x (v : RunState) : (s.setRunState v).x = s.x := rfl
@[simp] theorem State.setRunState_y (v : RunState) : (s.setRunState v).y = s.y := rfl
@[simp] theorem State.setRunState_p (v : RunState) : (s.setRunState v).p = s.p := rfl
@[simp] theorem State.setRunState_pc (v : RunState) : (s.setRunState v).pc = s.pc := rfl
@[simp] theorem State.setRunState_runState (v : RunState) : (s.setRunState v).runState = v := rfl
@[simp] theorem State.setRunState_faultCause (v : RunState) : (s.setRunState v).faultCause = s.faultCause := rfl
@[simp] theorem State.setRunState_mem (v : RunState) : (s.setRunState v).mem = s.mem := rfl

@[simp] theorem State.setFaultCause_a (v : FaultCause) : (s.setFaultCause v).a = s.a := rfl
@[simp] theorem State.setFaultCause_x (v : FaultCause) : (s.setFaultCause v).x = s.x := rfl
@[simp] theorem State.setFaultCause_y (v : FaultCause) : (s.setFaultCause v).y = s.y := rfl
@[simp] theorem State.setFaultCause_p (v : FaultCause) : (s.setFaultCause v).p = s.p := rfl
@[simp] theorem State.setFaultCause_pc (v : FaultCause) : (s.setFaultCause v).pc = s.pc := rfl
@[simp] theorem State.setFaultCause_runState (v : FaultCause) : (s.setFaultCause v).runState = s.runState := rfl
@[simp] theorem State.setFaultCause_faultCause (v : FaultCause) : (s.setFaultCause v).faultCause = v := rfl
@[simp] theorem State.setFaultCause_mem (v : FaultCause) : (s.setFaultCause v).mem = s.mem := rfl

@[simp] theorem State.setMem_a (v : Memory) : (s.setMem v).a = s.a := rfl
@[simp] theorem State.setMem_x (v : Memory) : (s.setMem v).x = s.x := rfl
@[simp] theorem State.setMem_y (v : Memory) : (s.setMem v).y = s.y := rfl
@[simp] theorem State.setMem_p (v : Memory) : (s.setMem v).p = s.p := rfl
@[simp] theorem State.setMem_pc (v : Memory) : (s.setMem v).pc = s.pc := rfl
@[simp] theorem State.setMem_runState (v : Memory) : (s.setMem v).runState = s.runState := rfl
@[simp] theorem State.setMem_faultCause (v : Memory) : (s.setMem v).faultCause = s.faultCause := rfl
@[simp] theorem State.setMem_mem (v : Memory) : (s.setMem v).mem = v := rfl

@[simp] theorem State.incPc_a : (s.incPc).a = s.a := rfl
@[simp] theorem State.incPc_x : (s.incPc).x = s.x := rfl
@[simp] theorem State.incPc_y : (s.incPc).y = s.y := rfl
@[simp] theorem State.incPc_p : (s.incPc).p = s.p := rfl
@[simp] theorem State.incPc_pc : (s.incPc).pc = s.pc + 1#16 := rfl
@[simp] theorem State.incPc_runState : (s.incPc).runState = s.runState := rfl
@[simp] theorem State.incPc_faultCause : (s.incPc).faultCause = s.faultCause := rfl
@[simp] theorem State.incPc_mem : (s.incPc).mem = s.mem := rfl

@[simp] theorem State.addLen_a (mode : Mode) : (s.addLen mode).a = s.a := rfl
@[simp] theorem State.addLen_x (mode : Mode) : (s.addLen mode).x = s.x := rfl
@[simp] theorem State.addLen_y (mode : Mode) : (s.addLen mode).y = s.y := rfl
@[simp] theorem State.addLen_p (mode : Mode) : (s.addLen mode).p = s.p := rfl
@[simp] theorem State.addLen_pc (mode : Mode) : (s.addLen mode).pc = s.pc + BitVec.ofNat 16 mode.len := rfl
@[simp] theorem State.addLen_runState (mode : Mode) : (s.addLen mode).runState = s.runState := rfl
@[simp] theorem State.addLen_faultCause (mode : Mode) : (s.addLen mode).faultCause = s.faultCause := rfl
@[simp] theorem State.addLen_mem (mode : Mode) : (s.addLen mode).mem = s.mem := rfl

@[simp] theorem takeUnimplementedOpcode_a : (takeUnimplementedOpcode s).a = s.a := rfl
@[simp] theorem takeUnimplementedOpcode_x : (takeUnimplementedOpcode s).x = s.x := rfl
@[simp] theorem takeUnimplementedOpcode_y : (takeUnimplementedOpcode s).y = s.y := rfl
@[simp] theorem takeUnimplementedOpcode_p : (takeUnimplementedOpcode s).p = s.p := rfl
@[simp] theorem takeUnimplementedOpcode_pc : (takeUnimplementedOpcode s).pc = s.pc := rfl
@[simp] theorem takeUnimplementedOpcode_runState : (takeUnimplementedOpcode s).runState = .halted := rfl
@[simp] theorem takeUnimplementedOpcode_faultCause : (takeUnimplementedOpcode s).faultCause = .unimplementedOpcode := rfl
@[simp] theorem takeUnimplementedOpcode_mem : (takeUnimplementedOpcode s).mem = s.mem := rfl

/-- Two states with equal fields are equal. -/
theorem State.ext_fields {s t : State} (ha : s.a = t.a) (hx : s.x = t.x) (hy : s.y = t.y) (hp : s.p = t.p)
    (hpc : s.pc = t.pc) (hr : s.runState = t.runState) (hf : s.faultCause = t.faultCause) (hm : s.mem = t.mem) :
    s = t := by
  cases s; cases t; simp_all

end Sys2Proof.Machine
end

