-- ==== Sys2Proof/Laws/Effects.lean ====
section
/-! SUPPORT. What each shared operation of the instructions does to each field of the state and to each bit of P, once: the
meanings are these operations followed by `finish`. -/

namespace Sys2Proof.Machine

variable (s : State)

/-- Every instruction but the halt ends in the state its effect left, with PC past the operand bytes (R86). -/
@[simp] theorem finish_eq (mode : Mode) : finish mode s = .next (s.addLen mode) := rfl

@[simp] theorem ldaValue_a (m : Byte) : (ldaValue m s).a = m := rfl
@[simp] theorem ldaValue_x (m : Byte) : (ldaValue m s).x = s.x := rfl
@[simp] theorem ldaValue_y (m : Byte) : (ldaValue m s).y = s.y := rfl
@[simp] theorem ldaValue_pc (m : Byte) : (ldaValue m s).pc = s.pc := rfl
@[simp] theorem ldaValue_runState (m : Byte) : (ldaValue m s).runState = s.runState := rfl
@[simp] theorem ldaValue_faultCause (m : Byte) : (ldaValue m s).faultCause = s.faultCause := rfl
@[simp] theorem ldaValue_mem (m : Byte) : (ldaValue m s).mem = s.mem := rfl

/-- The bits of P after `ldaValue`: those of the flags the rule lists, and every other as before. -/
@[simp] theorem ldaValue_p_bit (m : Byte) (i : Nat) (hi : i < 8) :
    (ldaValue m s).p[i] =
      if i = 7 then m[7] else if i = 1 then (m == 0#8) else s.p[i] := by
  simp [ldaValue]

@[simp] theorem adcValue_a (m : Byte) : (adcValue m s).a = aluResult .adc s.a m (s.p[0]) := rfl
@[simp] theorem adcValue_x (m : Byte) : (adcValue m s).x = s.x := rfl
@[simp] theorem adcValue_y (m : Byte) : (adcValue m s).y = s.y := rfl
@[simp] theorem adcValue_pc (m : Byte) : (adcValue m s).pc = s.pc := rfl
@[simp] theorem adcValue_runState (m : Byte) : (adcValue m s).runState = s.runState := rfl
@[simp] theorem adcValue_faultCause (m : Byte) : (adcValue m s).faultCause = s.faultCause := rfl
@[simp] theorem adcValue_mem (m : Byte) : (adcValue m s).mem = s.mem := rfl

/-- The bits of P after `adcValue`: those of the flags the rule lists, and every other as before. -/
@[simp] theorem adcValue_p_bit (m : Byte) (i : Nat) (hi : i < 8) :
    (adcValue m s).p[i] =
      if i = 7 then (aluResult .adc s.a m (s.p[0]))[7] else if i = 1 then (aluResult .adc s.a m (s.p[0]) == 0#8) else if i = 6 then aluOverflow .adc s.a m (s.p[0]) else if i = 0 then aluCarry .adc s.a m (s.p[0]) else s.p[i] := by
  simp [adcValue]

@[simp] theorem andValue_a (m : Byte) : (andValue m s).a = s.a &&& m := rfl
@[simp] theorem andValue_x (m : Byte) : (andValue m s).x = s.x := rfl
@[simp] theorem andValue_y (m : Byte) : (andValue m s).y = s.y := rfl
@[simp] theorem andValue_pc (m : Byte) : (andValue m s).pc = s.pc := rfl
@[simp] theorem andValue_runState (m : Byte) : (andValue m s).runState = s.runState := rfl
@[simp] theorem andValue_faultCause (m : Byte) : (andValue m s).faultCause = s.faultCause := rfl
@[simp] theorem andValue_mem (m : Byte) : (andValue m s).mem = s.mem := rfl

/-- The bits of P after `andValue`: those of the flags the rule lists, and every other as before. -/
@[simp] theorem andValue_p_bit (m : Byte) (i : Nat) (hi : i < 8) :
    (andValue m s).p[i] =
      if i = 7 then (s.a &&& m)[7] else if i = 1 then (s.a &&& m == 0#8) else s.p[i] := by
  simp [andValue]

@[simp] theorem staTo_a (ea : Word) : (staTo ea s).a = s.a := rfl
@[simp] theorem staTo_x (ea : Word) : (staTo ea s).x = s.x := rfl
@[simp] theorem staTo_y (ea : Word) : (staTo ea s).y = s.y := rfl
@[simp] theorem staTo_pc (ea : Word) : (staTo ea s).pc = s.pc := rfl
@[simp] theorem staTo_runState (ea : Word) : (staTo ea s).runState = s.runState := rfl
@[simp] theorem staTo_faultCause (ea : Word) : (staTo ea s).faultCause = s.faultCause := rfl
@[simp] theorem staTo_mem (ea : Word) : (staTo ea s).mem = s.mem.write ea s.a := rfl
@[simp] theorem staTo_p (ea : Word) : (staTo ea s).p = s.p := rfl

@[simp] theorem aslA_a : (aslA s).a = s.a <<< 1 := rfl
@[simp] theorem aslA_x : (aslA s).x = s.x := rfl
@[simp] theorem aslA_y : (aslA s).y = s.y := rfl
@[simp] theorem aslA_pc : (aslA s).pc = s.pc := rfl
@[simp] theorem aslA_runState : (aslA s).runState = s.runState := rfl
@[simp] theorem aslA_faultCause : (aslA s).faultCause = s.faultCause := rfl
@[simp] theorem aslA_mem : (aslA s).mem = s.mem := rfl

/-- The bits of P after `aslA`: those of the flags the rule lists, and every other as before. -/
@[simp] theorem aslA_p_bit (i : Nat) (hi : i < 8) :
    (aslA s).p[i] =
      if i = 0 then s.a[7] else s.p[i] := by
  simp [aslA]

@[simp] theorem aslAt_a (ea : Word) : (aslAt ea s).a = s.a := rfl
@[simp] theorem aslAt_x (ea : Word) : (aslAt ea s).x = s.x := rfl
@[simp] theorem aslAt_y (ea : Word) : (aslAt ea s).y = s.y := rfl
@[simp] theorem aslAt_pc (ea : Word) : (aslAt ea s).pc = s.pc := rfl
@[simp] theorem aslAt_runState (ea : Word) : (aslAt ea s).runState = s.runState := rfl
@[simp] theorem aslAt_faultCause (ea : Word) : (aslAt ea s).faultCause = s.faultCause := rfl
@[simp] theorem aslAt_mem (ea : Word) : (aslAt ea s).mem = s.mem.write ea (s.mem.read ea <<< 1) := rfl

/-- The bits of P after `aslAt`: those of the flags the rule lists, and every other as before. -/
@[simp] theorem aslAt_p_bit (ea : Word) (i : Nat) (hi : i < 8) :
    (aslAt ea s).p[i] =
      if i = 0 then (s.mem.read ea)[7] else s.p[i] := by
  simp [aslAt]

@[simp] theorem toX_a (out : AluOut) : (toX out s).a = s.a := rfl
@[simp] theorem toX_x (out : AluOut) : (toX out s).x = out.r := rfl
@[simp] theorem toX_y (out : AluOut) : (toX out s).y = s.y := rfl
@[simp] theorem toX_pc (out : AluOut) : (toX out s).pc = s.pc := rfl
@[simp] theorem toX_runState (out : AluOut) : (toX out s).runState = s.runState := rfl
@[simp] theorem toX_faultCause (out : AluOut) : (toX out s).faultCause = s.faultCause := rfl
@[simp] theorem toX_mem (out : AluOut) : (toX out s).mem = s.mem := rfl

/-- The bits of P after `toX`: those of the flags the rule lists, and every other as before. -/
@[simp] theorem toX_p_bit (out : AluOut) (i : Nat) (hi : i < 8) :
    (toX out s).p[i] =
      if i = 7 then out.n else if i = 1 then out.z else s.p[i] := by
  simp [toX]

@[simp] theorem ldaFrom_eq (ea : Word) : ldaFrom ea s = ldaValue (s.mem.read ea) s := rfl

@[simp] theorem adcFrom_eq (ea : Word) : adcFrom ea s = adcValue (s.mem.read ea) s := rfl

@[simp] theorem andFrom_eq (ea : Word) : andFrom ea s = andValue (s.mem.read ea) s := rfl

end Sys2Proof.Machine
end

