-- ==== Sys2Proof/Laws/Operands.lean ====
section
/-! SUPPORT. What each effective address depends on: X, Y and the store, and PC in the two PC modes only (R100). -/

namespace Sys2Proof.Machine

variable (s : State)

@[simp] theorem eaZeroPageX_setPc (zp : Byte) (v : Word) : eaZeroPageX zp (s.setPc v) = eaZeroPageX zp s := rfl
@[simp] theorem eaAbsoluteX_setPc (w v : Word) : eaAbsoluteX w (s.setPc v) = eaAbsoluteX w s := rfl
@[simp] theorem eaAbsoluteY_setPc (w v : Word) : eaAbsoluteY w (s.setPc v) = eaAbsoluteY w s := rfl
@[simp] theorem eaIndirectX_setPc (zp : Byte) (v : Word) : eaIndirectX zp (s.setPc v) = eaIndirectX zp s := rfl
@[simp] theorem eaIndirectY_setPc (zp : Byte) (v : Word) : eaIndirectY zp (s.setPc v) = eaIndirectY zp s := rfl

@[simp] theorem eaZeroPageX_incPc (zp : Byte) : eaZeroPageX zp s.incPc = eaZeroPageX zp s := rfl
@[simp] theorem eaAbsoluteX_incPc (w : Word) : eaAbsoluteX w s.incPc = eaAbsoluteX w s := rfl
@[simp] theorem eaAbsoluteY_incPc (w : Word) : eaAbsoluteY w s.incPc = eaAbsoluteY w s := rfl
@[simp] theorem eaIndirectX_incPc (zp : Byte) : eaIndirectX zp s.incPc = eaIndirectX zp s := rfl
@[simp] theorem eaIndirectY_incPc (zp : Byte) : eaIndirectY zp s.incPc = eaIndirectY zp s := rfl

@[simp] theorem zext16_toNat (v : Byte) : (zext16 v).toNat = v.toNat := by
  have := v.isLt
  simp only [zext16, BitVec.toNat_setWidth]
  omega

/-- `{hi, lo}` as a number (R45). -/
@[simp] theorem wordOf_toNat (hi lo : Byte) : (wordOf hi lo).toNat = lo.toNat + 256 * hi.toNat := by
  have := lo.isLt
  rw [wordOf, BitVec.toNat_append, ← Nat.shiftLeft_add_eq_or_of_lt this, Nat.shiftLeft_eq]
  omega

/-- The bytes of a word, put together, are the word (R45). -/
@[simp] theorem wordOf_bytes (w : Word) : wordOf (hiByte w) (loByte w) = w := by
  apply BitVec.eq_of_toNat_eq
  have := w.isLt
  simp only [wordOf_toNat, loByte, hiByte, BitVec.extractLsb'_toNat, Nat.shiftRight_eq_div_pow]
  omega

@[simp] theorem loByte_wordOf (hi lo : Byte) : loByte (wordOf hi lo) = lo := by
  apply BitVec.eq_of_toNat_eq
  have := lo.isLt
  simp only [wordOf_toNat, loByte, BitVec.extractLsb'_toNat, Nat.shiftRight_eq_div_pow]
  omega

@[simp] theorem hiByte_wordOf (hi lo : Byte) : hiByte (wordOf hi lo) = hi := by
  apply BitVec.eq_of_toNat_eq
  have := lo.isLt
  have := hi.isLt
  simp only [wordOf_toNat, hiByte, BitVec.extractLsb'_toNat, Nat.shiftRight_eq_div_pow]
  omega

@[simp] theorem read16_toNat (m : Memory) (lo hi : Word) :
    (m.read16 lo hi).toNat = (m.read lo).toNat + 256 * (m.read hi).toNat := wordOf_toNat _ _

end Sys2Proof.Machine
end

