-- ==== Sys2Proof/Laws/PerInstr.lean ====
section
/-! SUPPORT. Statements about every instruction as syntax, one lemma per constructor. -/

namespace Sys2Proof.Laws.Encoding

/-- An instruction is well formed, its encoding has the length of its mode (R60, R62), and the decoder's table gives its first
byte the instruction's own entry (R66). -/
def Statement (i : Instr) : Prop :=
  i.wellFormed = true ∧ (encode i).length = 1 + i.mode.len ∧
    ∃ op operands, encode i = op :: operands ∧ lookup op = some i.descriptor

theorem ldaImm (imm : Byte) : Statement (.ldaImm imm) := ⟨rfl, rfl, _, _, rfl, rfl⟩
theorem ldaZp (zp : Byte) : Statement (.ldaZp zp) := ⟨rfl, rfl, _, _, rfl, rfl⟩
theorem ldaZpx (zp : Byte) : Statement (.ldaZpx zp) := ⟨rfl, rfl, _, _, rfl, rfl⟩
theorem ldaAbs (addr : Word) : Statement (.ldaAbs addr) := ⟨rfl, rfl, _, _, rfl, rfl⟩
theorem ldaAbsX (base : Word) : Statement (.ldaAbsX base) := ⟨rfl, rfl, _, _, rfl, rfl⟩
theorem ldaAbsY (base : Word) : Statement (.ldaAbsY base) := ⟨rfl, rfl, _, _, rfl, rfl⟩
theorem ldaIndX (zp : Byte) : Statement (.ldaIndX zp) := ⟨rfl, rfl, _, _, rfl, rfl⟩
theorem ldaIndY (zp : Byte) : Statement (.ldaIndY zp) := ⟨rfl, rfl, _, _, rfl, rfl⟩
theorem staZp (zp : Byte) : Statement (.staZp zp) := ⟨rfl, rfl, _, _, rfl, rfl⟩
theorem staZpx (zp : Byte) : Statement (.staZpx zp) := ⟨rfl, rfl, _, _, rfl, rfl⟩
theorem staAbs (addr : Word) : Statement (.staAbs addr) := ⟨rfl, rfl, _, _, rfl, rfl⟩
theorem staAbsX (base : Word) : Statement (.staAbsX base) := ⟨rfl, rfl, _, _, rfl, rfl⟩
theorem staAbsY (base : Word) : Statement (.staAbsY base) := ⟨rfl, rfl, _, _, rfl, rfl⟩
theorem staIndX (zp : Byte) : Statement (.staIndX zp) := ⟨rfl, rfl, _, _, rfl, rfl⟩
theorem staIndY (zp : Byte) : Statement (.staIndY zp) := ⟨rfl, rfl, _, _, rfl, rfl⟩
theorem adcImm (imm : Byte) : Statement (.adcImm imm) := ⟨rfl, rfl, _, _, rfl, rfl⟩
theorem adcZp (zp : Byte) : Statement (.adcZp zp) := ⟨rfl, rfl, _, _, rfl, rfl⟩
theorem adcZpx (zp : Byte) : Statement (.adcZpx zp) := ⟨rfl, rfl, _, _, rfl, rfl⟩
theorem adcAbs (addr : Word) : Statement (.adcAbs addr) := ⟨rfl, rfl, _, _, rfl, rfl⟩
theorem adcAbsX (base : Word) : Statement (.adcAbsX base) := ⟨rfl, rfl, _, _, rfl, rfl⟩
theorem adcAbsY (base : Word) : Statement (.adcAbsY base) := ⟨rfl, rfl, _, _, rfl, rfl⟩
theorem adcIndX (zp : Byte) : Statement (.adcIndX zp) := ⟨rfl, rfl, _, _, rfl, rfl⟩
theorem adcIndY (zp : Byte) : Statement (.adcIndY zp) := ⟨rfl, rfl, _, _, rfl, rfl⟩
theorem andImm (imm : Byte) : Statement (.andImm imm) := ⟨rfl, rfl, _, _, rfl, rfl⟩
theorem andZp (zp : Byte) : Statement (.andZp zp) := ⟨rfl, rfl, _, _, rfl, rfl⟩
theorem andZpx (zp : Byte) : Statement (.andZpx zp) := ⟨rfl, rfl, _, _, rfl, rfl⟩
theorem andAbs (addr : Word) : Statement (.andAbs addr) := ⟨rfl, rfl, _, _, rfl, rfl⟩
theorem andAbsX (base : Word) : Statement (.andAbsX base) := ⟨rfl, rfl, _, _, rfl, rfl⟩
theorem andAbsY (base : Word) : Statement (.andAbsY base) := ⟨rfl, rfl, _, _, rfl, rfl⟩
theorem andIndX (zp : Byte) : Statement (.andIndX zp) := ⟨rfl, rfl, _, _, rfl, rfl⟩
theorem andIndY (zp : Byte) : Statement (.andIndY zp) := ⟨rfl, rfl, _, _, rfl, rfl⟩
theorem aslAcc : Statement (.aslAcc) := ⟨rfl, rfl, _, _, rfl, rfl⟩
theorem aslZp (zp : Byte) : Statement (.aslZp zp) := ⟨rfl, rfl, _, _, rfl, rfl⟩
theorem aslZpx (zp : Byte) : Statement (.aslZpx zp) := ⟨rfl, rfl, _, _, rfl, rfl⟩
theorem aslAbs (addr : Word) : Statement (.aslAbs addr) := ⟨rfl, rfl, _, _, rfl, rfl⟩
theorem aslAbsX (base : Word) : Statement (.aslAbsX base) := ⟨rfl, rfl, _, _, rfl, rfl⟩
theorem tax : Statement (.tax) := ⟨rfl, rfl, _, _, rfl, rfl⟩
theorem inx : Statement (.inx) := ⟨rfl, rfl, _, _, rfl, rfl⟩
theorem sei : Statement (.sei) := ⟨rfl, rfl, _, _, rfl, rfl⟩
theorem sed : Statement (.sed) := ⟨rfl, rfl, _, _, rfl, rfl⟩
theorem brk : Statement (.brk) := ⟨rfl, rfl, _, _, rfl, rfl⟩

end Sys2Proof.Laws.Encoding
end

