-- ==== Sys2Proof/Laws/Platform.lean ====
section
/-! SUPPORT. What reset and load do to each field, once, and that they keep the canonical form of the store. -/

namespace Sys2Proof.Machine

variable (s : State)

@[simp] theorem resetCore_a : (resetCore s).a = 0 := rfl
@[simp] theorem resetCore_x : (resetCore s).x = 0 := rfl
@[simp] theorem resetCore_y : (resetCore s).y = 0 := rfl
@[simp] theorem resetCore_p : (resetCore s).p = 0 := rfl
@[simp] theorem resetCore_pc : (resetCore s).pc = s.mem.read16 Config.resetVectorLo Config.resetVectorHi := rfl
@[simp] theorem resetCore_runState : (resetCore s).runState = .running := rfl
@[simp] theorem resetCore_faultCause : (resetCore s).faultCause = .none := rfl
@[simp] theorem resetCore_mem : (resetCore s).mem = s.mem := rfl

theorem loadedStore_wf (bytes : List Byte) (m : Memory) (hw : m.wf = true) : (loadedStore bytes m).wf = true :=
  Memory.write_wf _ _ _ (Memory.write_wf _ _ _ (Memory.writeBytes_wf _ _ _ hw))

/-- Everything a load can do (R236, R237, R54): a load that answers a next state found the core Halted and the program short
enough, and changed the store alone. -/
theorem load_next {bytes : List Byte} {t : State} (h : load bytes s = .next t) :
    s.runState = .halted ∧ bytes.length ≤ Config.maxProgram ∧ t = s.setMem (loadedStore bytes s.mem) := by
  unfold load at h
  cases hr : s.runState with
  | running => simp [hr] at h
  | halted =>
    simp only [hr] at h
    split at h
    · exact absurd h (by simp)
    · next hlen => exact ⟨rfl, Nat.le_of_not_lt hlen, (Host.Outcome.next.inj h).symm⟩

end Sys2Proof.Machine
end

