-- ==== Sys2Proof/Laws/Step.lean ====
section
/-! SUPPORT. What a step can do, once: idle, take the exception, or run one instruction. -/

namespace Sys2Proof.Machine

variable (s : State)

/-- The bytes fetched for an opcode outside the table: the opcode is refused by name. -/
theorem decode_fetch_unimplemented (h : lookup (s.mem.read s.pc) = none) :
    decode (fetchBytes s) = .error (.unimplementedOpcode (s.mem.read s.pc)) := by
  simp [fetchBytes, decode, h]

/-- The bytes fetched for an opcode of the table: an instance of its entry, with no byte left over. -/
theorem decode_fetch_implemented {d : Descriptor} (h : lookup (s.mem.read s.pc) = some d) :
    ∃ i, decode (fetchBytes s) = .ok (i, []) ∧ i.descriptor = d := by
  obtain ⟨b0, b1, hops⟩ := takeOperands_exact d.mode
    (s.mem.readBytes (s.pc + 1#16) (operandLength (s.mem.read s.pc))) (by simp [operandLength_lookup h])
  obtain ⟨i, hi, hd⟩ := instrOf_lookup h b0 b1
  exact ⟨i, by simp [fetchBytes, decode, h, hops, hi], hd⟩

/-- A fetch never gives the decoder too few bytes. -/
theorem fetch_not_truncated : decode (fetchBytes s) ≠ .error .truncated := by
  cases h : lookup (s.mem.read s.pc) with
  | none => simp [decode_fetch_unimplemented s h]
  | some d =>
    obtain ⟨i, hi, -⟩ := decode_fetch_implemented s h
    simp [hi]

/-- Everything a step can do (R80, R81, R201). -/
theorem step_cases :
    (s.runState = .halted ∧ step s = .next s) ∨
    (s.runState = .running ∧ lookup (s.mem.read s.pc) = none ∧ step s = .next (takeUnimplementedOpcode s.incPc)) ∨
    (∃ i, s.runState = .running ∧ lookup (s.mem.read s.pc) = some i.descriptor ∧
      decode (fetchBytes s) = .ok (i, []) ∧ step s = exec i s.incPc) := by
  cases hr : s.runState with
  | halted => exact .inl ⟨rfl, by simp [step, hr]⟩
  | running =>
    cases hl : lookup (s.mem.read s.pc) with
    | none => exact .inr (.inl ⟨rfl, rfl, by simp [step, hr, decode_fetch_unimplemented s hl]⟩)
    | some d =>
      obtain ⟨i, hi, rfl⟩ := decode_fetch_implemented s hl
      exact .inr (.inr ⟨i, rfl, rfl, hi, by simp [step, hr, hi]⟩)

end Sys2Proof.Machine
end

