-- ==== Sys2Proof/Machine/Assembly.lean ====
section
/-! DEFINITION. The assembler form of an instruction (`30_encoding.md` R71). It is for reading only: no meaning uses it. -/

namespace Sys2Proof.Machine

/-- The mnemonic of a family (R71). -/
def familyMnemonic : Family → String
  | .brk => "BRK"
  | .lda => "LDA"
  | .sta => "STA"
  | .adc => "ADC"
  | .and => "AND"
  | .asl => "ASL"
  | .tax => "TAX"
  | .inx => "INX"
  | .sei => "SEI"
  | .sed => "SED"

/-- A hexadecimal digit, 0 to 15. -/
def hexDigit (n : Nat) : Char := "0123456789ABCDEF".toList.getD n '0'

/-- A byte as two hexadecimal digits. -/
def hexByte (b : Byte) : List Char := [hexDigit (b.toNat / 16), hexDigit (b.toNat % 16)]

/-- The operand text of a mode (R71), given the operand bytes. Relative has no form of its own in R71. -/
def operandText (mode : Mode) (accForm : Bool) (b0 b1 : Byte) : List Char :=
  match mode with
  | .implied => if accForm then [' ', 'A'] else []
  | .immediate => [' ', '#', '$'] ++ hexByte b0
  | .zeroPage => [' ', '$'] ++ hexByte b0
  | .zeroPageX => [' ', '$'] ++ hexByte b0 ++ [',', 'X']
  | .absolute => [' ', '$'] ++ hexByte b1 ++ hexByte b0
  | .absoluteX => [' ', '$'] ++ hexByte b1 ++ hexByte b0 ++ [',', 'X']
  | .absoluteY => [' ', '$'] ++ hexByte b1 ++ hexByte b0 ++ [',', 'Y']
  | .indirectX => [' ', '(', '$'] ++ hexByte b0 ++ [',', 'X', ')']
  | .indirectY => [' ', '(', '$'] ++ hexByte b0 ++ [')', ',', 'Y']
  | .relative => []

/-- The assembler form of an instruction (R71). -/
def assemblerForm (i : Instr) : List Char :=
  (familyMnemonic i.family).toList ++
    operandText i.mode i.descriptor.accForm ((encode i).getD 1 0) ((encode i).getD 2 0)

end Sys2Proof.Machine
end

