-- ==== Sys2Proof/Tests/Slice0.lean ====
section
/-! SUPPORT. The model's own tests. Expected results come from the spec: the encodings of `30_encoding.md` R61 and R66, the
vectors V and L of `95_test_vectors.md`, the examples of R71. Then, for each statement that has hypotheses, a state that meets
them. -/

namespace Sys2Proof.Tests

open Sys2Proof.Machine Sys2Proof.Claims

/-- A store that holds the listed bytes, all else 0x00. -/
def store (bytes : List (Word × Byte)) : Memory := bytes.foldl (fun m c => m.write c.1 c.2) []

/-- A state with these registers and this store, its fault latch clear. -/
def state (a x y p : Byte) (pc : Word) (r : RunState) (bytes : List (Word × Byte)) : State where
  a := a
  x := x
  y := y
  p := p
  pc := pc
  runState := r
  faultCause := .none
  mem := store bytes

/-- One step ends in these registers, with these bytes of memory changed and no other. -/
def ends (s : State) (a x y p : Byte) (pc : Word) (r : RunState) (c : FaultCause) (changed : List (Word × Byte)) : Bool :=
  match step s with
  | .next t => t.a == a && t.x == x && t.y == y && t.p == p && t.pc == pc && t.runState == r && t.faultCause == c &&
      t.mem == changed.foldl (fun m w => m.write w.1 w.2) s.mem
  | .fault _ => false
  | .refused _ => false

/-! ### What the well-formedness checks refuse -/

/-- STA has no Immediate form (R111). -/
theorem test_refuses_sta_immediate : Descriptor.wellFormed ⟨.sta, .immediate, false⟩ = false := by decide

/-- No family has the Relative mode (R110). -/
theorem test_refuses_relative : Descriptor.wellFormed ⟨.lda, .relative, false⟩ = false := by decide

/-- ASL has no AbsoluteY form (R66). -/
theorem test_refuses_asl_absoluteY : Descriptor.wellFormed ⟨.asl, .absoluteY, false⟩ = false := by decide

/-- Only ASL A is the accumulator form (R31). -/
theorem test_refuses_accForm_elsewhere :
    Descriptor.wellFormed ⟨.tax, .implied, true⟩ = false ∧ Descriptor.wellFormed ⟨.asl, .implied, false⟩ = false := by decide

/-- A table that uses an AND byte again for ASL, as one revision of the source did (R69). -/
theorem test_refuses_repeated_opcode :
    wellFormedTable [(0x25#8, ⟨.and, .zeroPage, false⟩), (0x25#8, ⟨.asl, .zeroPage, false⟩)] = false := by decide

/-- A table with an entry that has no rule (R70). -/
theorem test_refuses_table_with_ill_formed_entry :
    wellFormedTable [(0x89#8, ⟨.sta, .immediate, false⟩)] = false := by decide

/-! ### Decoding -/

/-- The LDA words of R66, with their operand bytes placed as R61 places them. -/
theorem test_decode_lda :
    decode [0xA9#8, 0x9C#8, 0xEE#8] = .ok (.ldaImm 0x9C, [0xEE#8]) ∧
    decode [0xA5#8, 0x9C#8, 0xEE#8] = .ok (.ldaZp 0x9C, [0xEE#8]) ∧
    decode [0xB5#8, 0x9C#8, 0xEE#8] = .ok (.ldaZpx 0x9C, [0xEE#8]) ∧
    decode [0xAD#8, 0x34#8, 0xC2#8, 0xEE#8] = .ok (.ldaAbs 0xC234, [0xEE#8]) ∧
    decode [0xBD#8, 0x34#8, 0xC2#8, 0xEE#8] = .ok (.ldaAbsX 0xC234, [0xEE#8]) ∧
    decode [0xB9#8, 0x34#8, 0xC2#8, 0xEE#8] = .ok (.ldaAbsY 0xC234, [0xEE#8]) ∧
    decode [0xA1#8, 0x9C#8, 0xEE#8] = .ok (.ldaIndX 0x9C, [0xEE#8]) ∧
    decode [0xB1#8, 0x9C#8, 0xEE#8] = .ok (.ldaIndY 0x9C, [0xEE#8]) := by decide

/-- The STA words of R66, with their operand bytes placed as R61 places them. -/
theorem test_decode_sta :
    decode [0x85#8, 0x9C#8, 0xEE#8] = .ok (.staZp 0x9C, [0xEE#8]) ∧
    decode [0x95#8, 0x9C#8, 0xEE#8] = .ok (.staZpx 0x9C, [0xEE#8]) ∧
    decode [0x8D#8, 0x34#8, 0xC2#8, 0xEE#8] = .ok (.staAbs 0xC234, [0xEE#8]) ∧
    decode [0x9D#8, 0x34#8, 0xC2#8, 0xEE#8] = .ok (.staAbsX 0xC234, [0xEE#8]) ∧
    decode [0x99#8, 0x34#8, 0xC2#8, 0xEE#8] = .ok (.staAbsY 0xC234, [0xEE#8]) ∧
    decode [0x81#8, 0x9C#8, 0xEE#8] = .ok (.staIndX 0x9C, [0xEE#8]) ∧
    decode [0x91#8, 0x9C#8, 0xEE#8] = .ok (.staIndY 0x9C, [0xEE#8]) := by decide

/-- The ADC words of R66, with their operand bytes placed as R61 places them. -/
theorem test_decode_adc :
    decode [0x69#8, 0x9C#8, 0xEE#8] = .ok (.adcImm 0x9C, [0xEE#8]) ∧
    decode [0x65#8, 0x9C#8, 0xEE#8] = .ok (.adcZp 0x9C, [0xEE#8]) ∧
    decode [0x75#8, 0x9C#8, 0xEE#8] = .ok (.adcZpx 0x9C, [0xEE#8]) ∧
    decode [0x6D#8, 0x34#8, 0xC2#8, 0xEE#8] = .ok (.adcAbs 0xC234, [0xEE#8]) ∧
    decode [0x7D#8, 0x34#8, 0xC2#8, 0xEE#8] = .ok (.adcAbsX 0xC234, [0xEE#8]) ∧
    decode [0x79#8, 0x34#8, 0xC2#8, 0xEE#8] = .ok (.adcAbsY 0xC234, [0xEE#8]) ∧
    decode [0x61#8, 0x9C#8, 0xEE#8] = .ok (.adcIndX 0x9C, [0xEE#8]) ∧
    decode [0x71#8, 0x9C#8, 0xEE#8] = .ok (.adcIndY 0x9C, [0xEE#8]) := by decide

/-- The AND words of R66, with their operand bytes placed as R61 places them. -/
theorem test_decode_and :
    decode [0x29#8, 0x9C#8, 0xEE#8] = .ok (.andImm 0x9C, [0xEE#8]) ∧
    decode [0x25#8, 0x9C#8, 0xEE#8] = .ok (.andZp 0x9C, [0xEE#8]) ∧
    decode [0x35#8, 0x9C#8, 0xEE#8] = .ok (.andZpx 0x9C, [0xEE#8]) ∧
    decode [0x2D#8, 0x34#8, 0xC2#8, 0xEE#8] = .ok (.andAbs 0xC234, [0xEE#8]) ∧
    decode [0x3D#8, 0x34#8, 0xC2#8, 0xEE#8] = .ok (.andAbsX 0xC234, [0xEE#8]) ∧
    decode [0x39#8, 0x34#8, 0xC2#8, 0xEE#8] = .ok (.andAbsY 0xC234, [0xEE#8]) ∧
    decode [0x21#8, 0x9C#8, 0xEE#8] = .ok (.andIndX 0x9C, [0xEE#8]) ∧
    decode [0x31#8, 0x9C#8, 0xEE#8] = .ok (.andIndY 0x9C, [0xEE#8]) := by decide

/-- The ASL words of R66, with their operand bytes placed as R61 places them. -/
theorem test_decode_asl :
    decode [0x0A#8, 0xEE#8] = .ok (.aslAcc, [0xEE#8]) ∧
    decode [0x06#8, 0x9C#8, 0xEE#8] = .ok (.aslZp 0x9C, [0xEE#8]) ∧
    decode [0x16#8, 0x9C#8, 0xEE#8] = .ok (.aslZpx 0x9C, [0xEE#8]) ∧
    decode [0x0E#8, 0x34#8, 0xC2#8, 0xEE#8] = .ok (.aslAbs 0xC234, [0xEE#8]) ∧
    decode [0x1E#8, 0x34#8, 0xC2#8, 0xEE#8] = .ok (.aslAbsX 0xC234, [0xEE#8]) := by decide

/-- The TAX words of R66, with their operand bytes placed as R61 places them. -/
theorem test_decode_tax :
    decode [0xAA#8, 0xEE#8] = .ok (.tax, [0xEE#8]) := by decide

/-- The INX words of R66, with their operand bytes placed as R61 places them. -/
theorem test_decode_inx :
    decode [0xE8#8, 0xEE#8] = .ok (.inx, [0xEE#8]) := by decide

/-- The SEI words of R66, with their operand bytes placed as R61 places them. -/
theorem test_decode_sei :
    decode [0x78#8, 0xEE#8] = .ok (.sei, [0xEE#8]) := by decide

/-- The SED words of R66, with their operand bytes placed as R61 places them. -/
theorem test_decode_sed :
    decode [0xF8#8, 0xEE#8] = .ok (.sed, [0xEE#8]) := by decide

/-- The BRK words of R66, with their operand bytes placed as R61 places them. -/
theorem test_decode_brk :
    decode [0x00#8, 0xEE#8] = .ok (.brk, [0xEE#8]) := by decide

/-- Bytes outside the table, among them 0xEA and the STA Immediate position 0x89 (R68, Part 5 of the vectors). -/
theorem test_decode_refuses :
    ∀ op ∈ [0x89#8, 0xEA#8, 0xA2#8, 0x4C#8, 0x01#8, 0xFF#8],
      decode [op, 0x05#8, 0x06#8] = .error (.unimplementedOpcode op) := by decide

/-- An instruction cut short is no instruction (R60). -/
theorem test_decode_truncated : decode [0xAD#8, 0x34#8] = .error .truncated ∧ decode [] = .error .truncated := by decide

/-- A table word is the bytes, first byte lowest, and bits from nbits up read 0 (R65). -/
theorem test_decodeTableWord :
    decodeTableWord 24 0x1234AD = some (.ldaAbs 0x1234) ∧ decodeTableWord 8 0xFF0A = some .aslAcc ∧
      decodeTableWord 8 0xEA = none := by decide

/-- R71's assembler forms. -/
theorem test_assemblerForm :
    assemblerForm (.ldaImm 0x05) = "LDA #$05".toList ∧ assemblerForm (.staAbsX 0x01FF) = "STA $01FF,X".toList ∧
      assemblerForm (.staIndX 0x3F) = "STA ($3F,X)".toList ∧ assemblerForm (.ldaIndY 0x40) = "LDA ($40),Y".toList ∧
      assemblerForm .aslAcc = "ASL A".toList := by decide

/-! ### One step, the vectors of Part 2 -/

/-- V3 (R121, R17): Z and N cleared, C I D V kept. -/
theorem test_ldaImm_V3 :
    ends (state 0xFF 0x00 0x00 0xCF 0x8000 .running [(0x8000, 0xA9), (0x8001, 0x7F)])
      0x7F 0x00 0x00 0x4D 0x8002 .running .none [] = true := by decide

/-- V20 (R121, R82, R22): PC wraps: operand byte at 0x0000. -/
theorem test_ldaImm_V20 :
    ends (state 0x00 0x00 0x00 0x00 0xFFFF .running [(0xFFFF, 0xA9), (0x0000, 0x85)])
      0x85 0x00 0x00 0x80 0x0001 .running .none [] = true := by decide

/-- V5 (R122, R102): zero page. -/
theorem test_ldaZp_V5 :
    ends (state 0x00 0x00 0x00 0x00 0x8000 .running [(0x8000, 0xA5), (0x8001, 0x10), (0x0010, 0xFF)])
      0xFF 0x00 0x00 0x80 0x8002 .running .none [] = true := by decide

/-- V6 (R122): last zero-page byte, zero value. -/
theorem test_ldaZp_V6 :
    ends (state 0x55 0x00 0x00 0x00 0x8000 .running [(0x8000, 0xA5), (0x8001, 0xFF), (0x00FF, 0x00)])
      0x00 0x00 0x00 0x02 0x8002 .running .none [] = true := by decide

/-- V7 (R123, R103): sum wraps in 8 bits: reads 0x0001, not 0x0101. -/
theorem test_ldaZpx_V7 :
    ends (state 0x00 0x02 0x00 0x00 0x8000 .running [(0x8000, 0xB5), (0x8001, 0xFF), (0x0001, 0x11), (0x0101, 0x22)])
      0x11 0x02 0x00 0x00 0x8002 .running .none [] = true := by decide

/-- V8 (R123): largest X. -/
theorem test_ldaZpx_V8 :
    ends (state 0x00 0xFF 0x00 0x00 0x8000 .running [(0x8000, 0xB5), (0x8001, 0x00), (0x00FF, 0x80)])
      0x80 0xFF 0x00 0x80 0x8002 .running .none [] = true := by decide

/-- V9 (R124, R104, R41): 0xFFFF is ordinary memory. -/
theorem test_ldaAbs_V9 :
    ends (state 0x00 0x00 0x00 0x00 0x8000 .running [(0x8000, 0xAD), (0x8001, 0xFF), (0x8002, 0xFF), (0xFFFF, 0x33)])
      0x33 0x00 0x00 0x00 0x8003 .running .none [] = true := by decide

/-- V21 (R124, R63): operand bytes at 0xFFFF and 0x0000; PC ends at 0x0001. -/
theorem test_ldaAbs_V21 :
    ends (state 0x00 0x00 0x00 0x00 0xFFFE .running [(0xFFFE, 0xAD), (0xFFFF, 0x34), (0x0000, 0x12), (0x1234, 0x99)])
      0x99 0x00 0x00 0x80 0x0001 .running .none [] = true := by decide

/-- V11 (R125, R105): base + X wraps to 0x0000. -/
theorem test_ldaAbsX_V11 :
    ends (state 0x00 0x01 0x00 0x00 0x8000 .running [(0x8000, 0xBD), (0x8001, 0xFF), (0x8002, 0xFF), (0x0000, 0x44)])
      0x44 0x01 0x00 0x00 0x8003 .running .none [] = true := by decide

/-- V12 (R125): no page-cross effect. -/
theorem test_ldaAbsX_V12 :
    ends (state 0x00 0xFF 0x00 0x00 0x8000 .running [(0x8000, 0xBD), (0x8001, 0x00), (0x8002, 0x20), (0x20FF, 0x7F)])
      0x7F 0xFF 0x00 0x00 0x8003 .running .none [] = true := by decide

/-- V13 (R126, R106): wraps; Y non-zero is unreachable from reset, given as a direct state. -/
theorem test_ldaAbsY_V13 :
    ends (state 0x00 0x00 0x20 0x00 0x8000 .running [(0x8000, 0xB9), (0x8001, 0xF0), (0x8002, 0xFF), (0x0010, 0x55)])
      0x55 0x00 0x20 0x00 0x8003 .running .none [] = true := by decide

/-- V14 (R126): Y = 0, the only reachable case. -/
theorem test_ldaAbsY_V14 :
    ends (state 0x00 0x00 0x00 0x00 0x8000 .running [(0x8000, 0xB9), (0x8001, 0xFF), (0x8002, 0x80), (0x80FF, 0xC3)])
      0xC3 0x00 0x00 0x80 0x8003 .running .none [] = true := by decide

/-- V15 (R127, R107): pointer at 0xFF: high byte from 0x0000, not 0x0100. -/
theorem test_ldaIndX_V15 :
    ends (state 0x00 0x0F 0x00 0x00 0x8000 .running [(0x8000, 0xA1), (0x8001, 0xF0), (0x0000, 0x12), (0x00FF, 0x34), (0x0100, 0x77), (0x1234, 0x5A), (0x7734, 0xEE)])
      0x5A 0x0F 0x00 0x00 0x8002 .running .none [] = true := by decide

/-- V16 (R127): nn + X wraps: pointer at 0x40. -/
theorem test_ldaIndX_V16 :
    ends (state 0x00 0x41 0x00 0x00 0x8000 .running [(0x8000, 0xA1), (0x8001, 0xFF), (0x0040, 0x00), (0x0041, 0x02), (0x0200, 0x81)])
      0x81 0x41 0x00 0x80 0x8002 .running .none [] = true := by decide

/-- V17 (R128, R108): Y added after the dereference: reads 0x0201 (0xAA); adding first would read 0x0302 (0xBB). -/
theorem test_ldaIndY_V17 :
    ends (state 0x00 0x00 0x01 0x00 0x8000 .running [(0x8000, 0xB1), (0x8001, 0x40), (0x0040, 0x00), (0x0041, 0x02), (0x0042, 0x03), (0x0201, 0xAA), (0x0302, 0xBB)])
      0xAA 0x00 0x01 0x80 0x8002 .running .none [] = true := by decide

/-- V18 (R128, R108): pointer at 0xFF wraps for its high byte; 0xFFF8 + 0x10 wraps to 0x0008. -/
theorem test_ldaIndY_V18 :
    ends (state 0x00 0x00 0x10 0x00 0x8000 .running [(0x8000, 0xB1), (0x8001, 0xFF), (0x0000, 0xFF), (0x0008, 0x42), (0x00FF, 0xF8), (0x0100, 0x77)])
      0x42 0x00 0x10 0x00 0x8002 .running .none [] = true := by decide

/-- V23 (R131): no flag changes. -/
theorem test_staZp_V23 :
    ends (state 0x2A 0x00 0x00 0xCF 0x8000 .running [(0x8000, 0x85), (0x8001, 0x10)])
      0x2A 0x00 0x00 0xCF 0x8002 .running .none [(0x0010, 0x2A)] = true := by decide

/-- V24 (R131): storing zero does not set Z. -/
theorem test_staZp_V24 :
    ends (state 0x00 0x00 0x00 0x00 0x8000 .running [(0x8000, 0x85), (0x8001, 0x10), (0x0010, 0xFF)])
      0x00 0x00 0x00 0x00 0x8002 .running .none [(0x0010, 0x00)] = true := by decide

/-- V25 (R132): (0x90 + 0x80) mod 256 = 0x10. -/
theorem test_staZpx_V25 :
    ends (state 0x80 0x80 0x00 0x80 0x8000 .running [(0x8000, 0x95), (0x8001, 0x90)])
      0x80 0x80 0x00 0x80 0x8002 .running .none [(0x0010, 0x80)] = true := by decide

/-- V26 (R133, R242): writes the reset vector low byte. -/
theorem test_staAbs_V26 :
    ends (state 0x34 0x00 0x00 0x00 0x8000 .running [(0x8000, 0x8D), (0x8001, 0xFC), (0x8002, 0xFF)])
      0x34 0x00 0x00 0x00 0x8003 .running .none [(0xFFFC, 0x34)] = true := by decide

/-- V33 (R133, R53): overwrites its own opcode; completes as fetched, PC + 3. -/
theorem test_staAbs_V33 :
    ends (state 0xEA 0x00 0x00 0x00 0x8000 .running [(0x8000, 0x8D), (0x8001, 0x00), (0x8002, 0x80)])
      0xEA 0x00 0x00 0x00 0x8003 .running .none [(0x8000, 0xEA)] = true := by decide

/-- V28 (R134): wraps to 0x0000. -/
theorem test_staAbsX_V28 :
    ends (state 0x3C 0x01 0x00 0x00 0x8000 .running [(0x8000, 0x9D), (0x8001, 0xFF), (0x8002, 0xFF)])
      0x3C 0x01 0x00 0x00 0x8003 .running .none [(0x0000, 0x3C)] = true := by decide

/-- V30 (R135): wraps to 0x0001; Y non-zero given as a direct state. -/
theorem test_staAbsY_V30 :
    ends (state 0x07 0x00 0x02 0x00 0x8000 .running [(0x8000, 0x99), (0x8001, 0xFF), (0x8002, 0xFF)])
      0x07 0x00 0x02 0x00 0x8003 .running .none [(0x0001, 0x07)] = true := by decide

/-- V31 (R136). -/
theorem test_staIndX_V31 :
    ends (state 0x81 0x01 0x00 0x00 0x8000 .running [(0x8000, 0x81), (0x8001, 0x3F), (0x0040, 0x00), (0x0041, 0x02)])
      0x81 0x01 0x00 0x00 0x8002 .running .none [(0x0200, 0x81)] = true := by decide

/-- V32 (R137): pointer in 0x00, 0x01. -/
theorem test_staIndY_V32 :
    ends (state 0x55 0x00 0x00 0x00 0x8000 .running [(0x8000, 0x91), (0x8001, 0x00), (0x0000, 0x80), (0x0001, 0x00)])
      0x55 0x00 0x00 0x00 0x8002 .running .none [(0x0080, 0x55)] = true := by decide

/-- V43 (R141, R140): a=80 m=FF c=1. -/
theorem test_adcImm_V43 :
    ends (state 0x80 0x00 0x00 0x01 0x8000 .running [(0x8000, 0x69), (0x8001, 0xFF)])
      0x80 0x00 0x00 0x81 0x8002 .running .none [] = true := by decide

/-- V52 (R141, R140): D = 1 has no effect: binary 0x0A, D kept. -/
theorem test_adcImm_V52 :
    ends (state 0x09 0x00 0x00 0x08 0x8000 .running [(0x8000, 0x69), (0x8001, 0x01)])
      0x0A 0x00 0x00 0x08 0x8002 .running .none [] = true := by decide

/-- V54 (R142). -/
theorem test_adcZp_V54 :
    ends (state 0x50 0x00 0x00 0x00 0x8000 .running [(0x8000, 0x65), (0x8001, 0x10), (0x0010, 0x50)])
      0xA0 0x00 0x00 0xC0 0x8002 .running .none [] = true := by decide

/-- V55 (R143). -/
theorem test_adcZpx_V55 :
    ends (state 0x01 0x02 0x00 0x01 0x8000 .running [(0x8000, 0x75), (0x8001, 0xFF), (0x0001, 0x01)])
      0x03 0x02 0x00 0x00 0x8002 .running .none [] = true := by decide

/-- V56 (R144). -/
theorem test_adcAbs_V56 :
    ends (state 0x80 0x00 0x00 0x00 0x8000 .running [(0x8000, 0x6D), (0x8001, 0x00), (0x8002, 0x03), (0x0300, 0x80)])
      0x00 0x00 0x00 0x43 0x8003 .running .none [] = true := by decide

/-- V61 (R144): adds its own opcode byte 0x6D. -/
theorem test_adcAbs_V61 :
    ends (state 0x01 0x00 0x00 0x00 0x8000 .running [(0x8000, 0x6D), (0x8001, 0x00), (0x8002, 0x80)])
      0x6E 0x00 0x00 0x00 0x8003 .running .none [] = true := by decide

/-- V57 (R145). -/
theorem test_adcAbsX_V57 :
    ends (state 0xFF 0x10 0x00 0x01 0x8000 .running [(0x8000, 0x7D), (0x8001, 0x00), (0x8002, 0x03), (0x0310, 0xFF)])
      0xFF 0x10 0x00 0x81 0x8003 .running .none [] = true := by decide

/-- V58 (R146): memory operand 0x00. -/
theorem test_adcAbsY_V58 :
    ends (state 0x7F 0x00 0x00 0x01 0x8000 .running [(0x8000, 0x79), (0x8001, 0x00), (0x8002, 0x20)])
      0x80 0x00 0x00 0xC0 0x8003 .running .none [] = true := by decide

/-- V59 (R147). -/
theorem test_adcIndX_V59 :
    ends (state 0x01 0x01 0x00 0x00 0x8000 .running [(0x8000, 0x61), (0x8001, 0x3F), (0x0040, 0x00), (0x0041, 0x02), (0x0200, 0x02)])
      0x03 0x01 0x00 0x00 0x8002 .running .none [] = true := by decide

/-- V60 (R148). -/
theorem test_adcIndY_V60 :
    ends (state 0x80 0x00 0x00 0x00 0x8000 .running [(0x8000, 0x71), (0x8001, 0x40), (0x0040, 0x00), (0x0041, 0x02), (0x0200, 0xFF)])
      0x7F 0x00 0x00 0x41 0x8002 .running .none [] = true := by decide

/-- V63 (R151): bit 7 kept. -/
theorem test_andImm_V63 :
    ends (state 0xF0 0x00 0x00 0x00 0x8000 .running [(0x8000, 0x29), (0x8001, 0x8F)])
      0x80 0x00 0x00 0x80 0x8002 .running .none [] = true := by decide

/-- V65 (R151): C and V kept. -/
theorem test_andImm_V65 :
    ends (state 0xF0 0x00 0x00 0x41 0x8000 .running [(0x8000, 0x29), (0x8001, 0x0F)])
      0x00 0x00 0x00 0x43 0x8002 .running .none [] = true := by decide

/-- V66 (R152). -/
theorem test_andZp_V66 :
    ends (state 0xCC 0x00 0x00 0x00 0x8000 .running [(0x8000, 0x25), (0x8001, 0x10), (0x0010, 0xAA)])
      0x88 0x00 0x00 0x80 0x8002 .running .none [] = true := by decide

/-- V67 (R153). -/
theorem test_andZpx_V67 :
    ends (state 0xFF 0x20 0x00 0x00 0x8000 .running [(0x8000, 0x35), (0x8001, 0xF0), (0x0010, 0x7F)])
      0x7F 0x20 0x00 0x00 0x8002 .running .none [] = true := by decide

/-- V68 (R154). -/
theorem test_andAbs_V68 :
    ends (state 0x81 0x00 0x00 0x00 0x8000 .running [(0x8000, 0x2D), (0x8001, 0x34), (0x8002, 0x12), (0x1234, 0x80)])
      0x80 0x00 0x00 0x80 0x8003 .running .none [] = true := by decide

/-- V69 (R155). -/
theorem test_andAbsX_V69 :
    ends (state 0x04 0x01 0x00 0x00 0x8000 .running [(0x8000, 0x3D), (0x8001, 0xFF), (0x8002, 0x01), (0x0200, 0x04)])
      0x04 0x01 0x00 0x00 0x8003 .running .none [] = true := by decide

/-- V70 (R156). -/
theorem test_andAbsY_V70 :
    ends (state 0xFF 0x00 0x00 0x00 0x8000 .running [(0x8000, 0x39), (0x8001, 0x00), (0x8002, 0x02), (0x0200, 0x00)])
      0x00 0x00 0x00 0x02 0x8003 .running .none [] = true := by decide

/-- V71 (R157). -/
theorem test_andIndX_V71 :
    ends (state 0x0F 0x01 0x00 0x00 0x8000 .running [(0x8000, 0x21), (0x8001, 0x3F), (0x0040, 0x00), (0x0041, 0x02), (0x0200, 0x3C)])
      0x0C 0x01 0x00 0x00 0x8002 .running .none [] = true := by decide

/-- V72 (R158). -/
theorem test_andIndY_V72 :
    ends (state 0xF0 0x00 0x00 0x00 0x8000 .running [(0x8000, 0x31), (0x8001, 0x40), (0x0040, 0x00), (0x0041, 0x02), (0x0200, 0x3C)])
      0x30 0x00 0x00 0x00 0x8002 .running .none [] = true := by decide

/-- V77 (R171): N stays 1 though A[7] is now 0. -/
theorem test_aslAcc_V77 :
    ends (state 0x81 0x00 0x00 0x80 0x8000 .running [(0x8000, 0x0A)])
      0x02 0x00 0x00 0x81 0x8001 .running .none [] = true := by decide

/-- V78 (R171): C cleared, Z stays 1 though A is not 0. -/
theorem test_aslAcc_V78 :
    ends (state 0x40 0x00 0x00 0x03 0x8000 .running [(0x8000, 0x0A)])
      0x80 0x00 0x00 0x02 0x8001 .running .none [] = true := by decide

/-- V80 (R172): A unchanged. -/
theorem test_aslZp_V80 :
    ends (state 0x33 0x00 0x00 0x00 0x8000 .running [(0x8000, 0x06), (0x8001, 0x10), (0x0010, 0x40)])
      0x33 0x00 0x00 0x00 0x8002 .running .none [(0x0010, 0x80)] = true := by decide

/-- V81 (R173). -/
theorem test_aslZpx_V81 :
    ends (state 0x00 0x01 0x00 0x00 0x8000 .running [(0x8000, 0x16), (0x8001, 0xFF), (0x0000, 0xFF)])
      0x00 0x01 0x00 0x01 0x8002 .running .none [(0x0000, 0xFE)] = true := by decide

/-- V82 (R174). -/
theorem test_aslAbs_V82 :
    ends (state 0x00 0x00 0x00 0x00 0x8000 .running [(0x8000, 0x0E), (0x8001, 0x00), (0x8002, 0x02), (0x0200, 0x81)])
      0x00 0x00 0x00 0x01 0x8003 .running .none [(0x0200, 0x02)] = true := by decide

/-- V84 (R174, R53): shifts its own opcode byte 0x0E to 0x1C; completes as fetched. -/
theorem test_aslAbs_V84 :
    ends (state 0x00 0x00 0x00 0x00 0x8000 .running [(0x8000, 0x0E), (0x8001, 0x00), (0x8002, 0x80)])
      0x00 0x00 0x00 0x00 0x8003 .running .none [(0x8000, 0x1C)] = true := by decide

/-- V83 (R175): C cleared. -/
theorem test_aslAbsX_V83 :
    ends (state 0x00 0x02 0x00 0x01 0x8000 .running [(0x8000, 0x1E), (0x8001, 0x00), (0x8002, 0x03), (0x0302, 0x01)])
      0x00 0x02 0x00 0x00 0x8003 .running .none [(0x0302, 0x02)] = true := by decide

/-- V86 (R180): N. -/
theorem test_tax_V86 :
    ends (state 0x80 0x00 0x00 0x00 0x8000 .running [(0x8000, 0xAA)])
      0x80 0x80 0x00 0x80 0x8001 .running .none [] = true := by decide

/-- V87 (R180): Z, N cleared, rest kept. -/
theorem test_tax_V87 :
    ends (state 0x05 0x00 0x00 0xCF 0x8000 .running [(0x8000, 0xAA)])
      0x05 0x05 0x00 0x4D 0x8001 .running .none [] = true := by decide

/-- V88 (R181): wraps to 0, Z; C not touched. -/
theorem test_inx_V88 :
    ends (state 0x00 0xFF 0x00 0x00 0x8000 .running [(0x8000, 0xE8)])
      0x00 0x00 0x00 0x02 0x8001 .running .none [] = true := by decide

/-- V91 (R181): A and C kept. -/
theorem test_inx_V91 :
    ends (state 0x11 0xFE 0x00 0x01 0x8000 .running [(0x8000, 0xE8)])
      0x11 0xFF 0x00 0x81 0x8001 .running .none [] = true := by decide

/-- V93 (R185). -/
theorem test_sei_V93 :
    ends (state 0x00 0x00 0x00 0xC3 0x8000 .running [(0x8000, 0x78)])
      0x00 0x00 0x00 0xC7 0x8001 .running .none [] = true := by decide

/-- V96 (R186). -/
theorem test_sed_V96 :
    ends (state 0x00 0x00 0x00 0xC3 0x8000 .running [(0x8000, 0xF8)])
      0x00 0x00 0x00 0xCB 0x8001 .running .none [] = true := by decide

/-- V98 (R190, R84): nothing changes but PC and run_state. -/
theorem test_brk_V98 :
    ends (state 0x12 0x34 0x00 0xCF 0x8000 .running [(0x8000, 0x00)])
      0x12 0x34 0x00 0xCF 0x8001 .halted .none [] = true := by decide

/-- V99 (R190, R22): PC wraps to 0x0000. -/
theorem test_brk_V99 :
    ends (state 0x00 0x00 0x00 0x00 0xFFFF .running [(0xFFFF, 0x00)])
      0x00 0x00 0x00 0x00 0x0000 .halted .none [] = true := by decide

/-- V101 (R201, R68, R85): 0xEA is not a no-op here. -/
theorem test_unimplemented_V101 :
    ends (state 0x01 0x00 0x00 0x00 0x8000 .running [(0x8000, 0xEA)])
      0x01 0x00 0x00 0x00 0x8001 .halted .unimplementedOpcode [] = true := by decide

/-- V103 (R201): registers and flags kept. -/
theorem test_unimplemented_V103 :
    ends (state 0xAA 0x00 0x00 0xCF 0x8000 .running [(0x8000, 0xFF)])
      0xAA 0x00 0x00 0xCF 0x8001 .halted .unimplementedOpcode [] = true := by decide

/-- V106 (R201, R110): no branch exists. -/
theorem test_unimplemented_V106 :
    ends (state 0x00 0x00 0x00 0x00 0x8000 .running [(0x8000, 0xD0), (0x8001, 0xFE)])
      0x00 0x00 0x00 0x00 0x8001 .halted .unimplementedOpcode [] = true := by decide

/-- V108 (R81): Halted: a step request changes nothing, reads nothing. -/
theorem test_halted_V108 :
    ends (state 0x00 0x00 0x00 0x00 0x8000 .halted [(0x8000, 0xA9), (0x8001, 0x05)])
      0x00 0x00 0x00 0x00 0x8000 .halted .none [] = true := by decide

/-! ### Power-on, load and reset, the vectors of Part 4 -/

/-- L7 (R232): reset overwrites every field, whatever it held. -/
theorem test_reset_L7 :
    resetCore { state 0x12 0x34 0x56 0xCF 0xABCD .halted [(0xFFFD, 0x80)] with faultCause := .unimplementedOpcode } =
      state 0x00 0x00 0x00 0x00 0x8000 .running [(0xFFFD, 0x80)] := by decide

/-- L8 (R232, R190): a reset on a store nobody wrote starts at 0x0000, where 0x00 halts. -/
theorem test_reset_L8 : ends State.reset 0x00 0x00 0x00 0x00 0x0001 .halted .none [] = true := by decide

/-- L1 (R236): what a load leaves. -/
theorem test_load_L1 :
    loadedStore [0xA9#8, 0x05#8, 0x00#8] [] = [(0x8000, 0xA9#8), (0x8001, 0x05#8), (0xFFFD, 0x80#8)] := by decide

/-- L9, L10 (R81): a step request to a Halted core, clean or faulted. -/
theorem test_halted_L9_L10 :
    ends State.powerOn 0x00 0x00 0x00 0x00 0x0000 .halted .none [] = true ∧
      ends { State.powerOn with pc := 0x8003, faultCause := .unimplementedOpcode }
        0x00 0x00 0x00 0x00 0x8003 .halted .unimplementedOpcode [] = true := by decide

/-- The accesses P5 lists for its step 8, `ASL $0200` at 800D (R50). -/
theorem test_accesses_P5_step8 :
    stepAccesses (state 0x81 0x01 0x00 0x00 0x800D .running [(0x800D, 0x0E), (0x800F, 0x02), (0x0200, 0x81)]) =
      [.read 0x800D, .read 0x800E, .read 0x800F, .read 0x0200, .write 0x0200 0x02] := by decide

/-- A word placed for the next step runs as the first instruction after reset. -/
theorem test_withFetchWord :
    ends (State.reset.withFetchWord 16 0x05A9) 0x05 0x00 0x00 0x00 0x0002 .running .none [] = true := by decide

/-! ### The hypotheses of the statements are met -/

/-- A Running core whose PC is 0xFFFF, so that the instruction's bytes run across the top of memory, with X and Y at their
largest and every flag set. -/
def acrossTop (bytes : List Byte) : State where
  a := 0xFF
  x := 0xFF
  y := 0xFF
  p := 0xFF
  pc := 0xFFFF
  runState := .running
  faultCause := .none
  mem := Memory.writeBytes [] 0xFFFF bytes

/-- An instruction of a list stands at PC of a Running core, byte for byte. -/
def placed (forms : List (List Byte)) : Bool :=
  forms.all fun bytes =>
    (acrossTop bytes).runState == .running &&
      (acrossTop bytes).mem.readBytes (acrossTop bytes).pc bytes.length == bytes

theorem placed_iff (forms : List (List Byte)) (h : placed forms = true) :
    ∀ bytes ∈ forms, (acrossTop bytes).runState = .running ∧ BytesAtPc (acrossTop bytes) bytes := by
  intro bytes hb
  simpa [placed, BytesAtPc, acrossTop] using List.all_eq_true.mp h bytes hb

theorem hypotheses_LdaSteps :
    ∀ bytes ∈ [[0xA9#8, 0xFF#8], [0xA5#8, 0xFF#8], [0xB5#8, 0xFF#8], [0xAD#8, 0xFF#8, 0xFF#8], [0xBD#8, 0xFF#8, 0xFF#8],
      [0xB9#8, 0xFF#8, 0xFF#8], [0xA1#8, 0xFF#8], [0xB1#8, 0xFF#8]],
      (acrossTop bytes).runState = .running ∧ BytesAtPc (acrossTop bytes) bytes := placed_iff _ (by decide)

theorem hypotheses_StaSteps :
    ∀ bytes ∈ [[0x85#8, 0xFF#8], [0x95#8, 0xFF#8], [0x8D#8, 0xFF#8, 0xFF#8], [0x9D#8, 0xFF#8, 0xFF#8],
      [0x99#8, 0xFF#8, 0xFF#8], [0x81#8, 0xFF#8], [0x91#8, 0xFF#8]],
      (acrossTop bytes).runState = .running ∧ BytesAtPc (acrossTop bytes) bytes := placed_iff _ (by decide)

theorem hypotheses_AdcSteps :
    ∀ bytes ∈ [[0x69#8, 0xFF#8], [0x65#8, 0xFF#8], [0x75#8, 0xFF#8], [0x6D#8, 0xFF#8, 0xFF#8], [0x7D#8, 0xFF#8, 0xFF#8],
      [0x79#8, 0xFF#8, 0xFF#8], [0x61#8, 0xFF#8], [0x71#8, 0xFF#8]],
      (acrossTop bytes).runState = .running ∧ BytesAtPc (acrossTop bytes) bytes := placed_iff _ (by decide)

theorem hypotheses_AndSteps :
    ∀ bytes ∈ [[0x29#8, 0xFF#8], [0x25#8, 0xFF#8], [0x35#8, 0xFF#8], [0x2D#8, 0xFF#8, 0xFF#8], [0x3D#8, 0xFF#8, 0xFF#8],
      [0x39#8, 0xFF#8, 0xFF#8], [0x21#8, 0xFF#8], [0x31#8, 0xFF#8]],
      (acrossTop bytes).runState = .running ∧ BytesAtPc (acrossTop bytes) bytes := placed_iff _ (by decide)

theorem hypotheses_AslSteps :
    ∀ bytes ∈ [[0x0A#8], [0x06#8, 0xFF#8], [0x16#8, 0xFF#8], [0x0E#8, 0xFF#8, 0xFF#8], [0x1E#8, 0xFF#8, 0xFF#8]],
      (acrossTop bytes).runState = .running ∧ BytesAtPc (acrossTop bytes) bytes := placed_iff _ (by decide)

theorem hypotheses_TransferAndIncrementSteps :
    ∀ bytes ∈ [[0xAA#8], [0xE8#8]],
      (acrossTop bytes).runState = .running ∧ BytesAtPc (acrossTop bytes) bytes := placed_iff _ (by decide)

theorem hypotheses_FlagSetSteps :
    ∀ bytes ∈ [[0x78#8], [0xF8#8]],
      (acrossTop bytes).runState = .running ∧ BytesAtPc (acrossTop bytes) bytes := placed_iff _ (by decide)

theorem hypotheses_BrkSteps :
    (acrossTop [0x00#8]).runState = .running ∧ BytesAtPc (acrossTop [0x00#8]) [0x00#8] ∧
      ∃ t, step (acrossTop [0x00#8]) = .next t := ⟨rfl, rfl, _, rfl⟩

theorem hypotheses_DecodedBytesAreTheEncoding : decode [0xAD#8, 0xFF#8, 0xFF#8, 0x00#8] = .ok (.ldaAbs 0xFFFF, [0x00#8]) := by
  decide

theorem hypotheses_DecoderAcceptsExactlyTheTable :
    0x00#8 ∈ implementedOpcodes ∧ 0xF8#8 ∈ implementedOpcodes ∧ 0xFF#8 ∉ implementedOpcodes ∧ 0x01#8 ∉ implementedOpcodes := by
  decide

theorem hypotheses_DecoderOutputsAreTheOpcodeMap :
    (8, 0, [(0x00#8, 0), (0x0A#8, 5), (0xAA#8, 6), (0xE8#8, 7), (0x78#8, 8), (0xF8#8, 9)]) ∈ opcodeMap ∧
      0xFF#8 ∉ implementedOpcodes := by decide

theorem hypotheses_ZeroPageXStaysInPageZero : 0x16#8 ∈ [0xB5#8, 0x95#8, 0x75#8, 0x35#8, 0x16#8] := by decide

theorem hypotheses_StepRunsTheDecodedInstruction :
    (acrossTop [0xAD#8, 0xFF#8, 0xFF#8]).runState = .running ∧
      decode (fetchBytes (acrossTop [0xAD#8, 0xFF#8, 0xFF#8])) = .ok (.ldaAbs 0xFFFF, []) := by decide

theorem hypotheses_StepRunsTheInstructionInMemory :
    (acrossTop [0xAD#8, 0xFF#8, 0xFF#8]).runState = .running ∧
      BytesAtPc (acrossTop [0xAD#8, 0xFF#8, 0xFF#8]) (encode (.ldaAbs 0xFFFF)) := ⟨rfl, rfl⟩

/-- For `UnimplementedOpcodeIsTaken`, and the not-in-the-table rows of `RunStateMachine` and `AccessesFollowTheTable`. -/
theorem hypotheses_UnimplementedOpcodeIsTaken :
    (acrossTop [0xEA#8]).runState = .running ∧
      (acrossTop [0xEA#8]).mem.read (acrossTop [0xEA#8]).pc ∉ implementedOpcodes ∧
      ∃ t, step (acrossTop [0xEA#8]) = .next t := ⟨rfl, by decide, _, rfl⟩

/-- For `HaltedStepChangesNothing`, `HaltedCoreStaysAsItIs` and the Halted row of `RunStateMachine`. -/
theorem hypotheses_HaltedStepChangesNothing : State.powerOn.runState = .halted := rfl

theorem hypotheses_PcAfterAnOrdinaryStep :
    (∀ bytes ∈ [[0xE8#8], [0xB1#8, 0xFF#8], [0x8D#8, 0xFF#8, 0xFF#8]], (acrossTop bytes).runState = .running) ∧
      (acrossTop [0xE8#8]).mem.read 0xFFFF ∈ oneByteOpcodes ∧
      (acrossTop [0xB1#8, 0xFF#8]).mem.read 0xFFFF ∈ twoByteOpcodes ∧
      (acrossTop [0x8D#8, 0xFF#8, 0xFF#8]).mem.read 0xFFFF ∈ threeByteOpcodes := by decide

theorem hypotheses_RunStateMachine :
    (acrossTop [0x00#8]).runState = .running ∧ (acrossTop [0x00#8]).mem.read 0xFFFF = 0x00#8 ∧
      (acrossTop [0xF8#8]).runState = .running ∧ (acrossTop [0xF8#8]).mem.read 0xFFFF ∈ implementedOpcodes ∧
      (acrossTop [0xF8#8]).mem.read 0xFFFF ≠ 0x00#8 := by decide

/-- One opcode of each line of the access table that has one: Implied, Immediate, then each memory mode's load, store and
shift. -/
theorem hypotheses_AccessesFollowTheTable :
    ∀ bytes ∈ [[0x00#8], [0xF8#8], [0x29#8, 0xFF#8], [0x25#8, 0xFF#8], [0x85#8, 0xFF#8], [0x06#8, 0xFF#8], [0x35#8, 0xFF#8],
      [0x95#8, 0xFF#8], [0x16#8, 0xFF#8], [0x2D#8, 0xFF#8, 0xFF#8], [0x8D#8, 0xFF#8, 0xFF#8], [0x0E#8, 0xFF#8, 0xFF#8],
      [0x3D#8, 0xFF#8, 0xFF#8], [0x9D#8, 0xFF#8, 0xFF#8], [0x1E#8, 0xFF#8, 0xFF#8], [0x39#8, 0xFF#8, 0xFF#8],
      [0x99#8, 0xFF#8, 0xFF#8], [0x21#8, 0xFF#8], [0x81#8, 0xFF#8], [0x31#8, 0xFF#8], [0x91#8, 0xFF#8]],
      (acrossTop bytes).runState = .running ∧ BytesAtPc (acrossTop bytes) bytes := placed_iff _ (by decide)

theorem hypotheses_OperandAddressIsResolvedAddress :
    BytesAtPc (acrossTop [0x91#8, 0xFF#8]) (encode (.staIndY 0xFF)) := rfl

theorem hypotheses_RegistersHaveOnlyTheirWriters :
    (∃ t, exec .sei (acrossTop []) = .next t) ∧ Instr.family .sei ∉ [Family.lda, .adc, .and] ∧ Instr.sei ≠ .aslAcc ∧
      Instr.sei ≠ .tax ∧ Instr.sei ≠ .inx := ⟨⟨_, rfl⟩, by decide⟩

/-- For `FlagsHaveOnlyTheirWriters` and the first part of `ReservedFlagBitsStayZero`. -/
theorem hypotheses_FlagsHaveOnlyTheirWriters : ∃ t, exec (.adcImm 0xFF) (acrossTop []) = .next t := ⟨_, rfl⟩

theorem hypotheses_MemoryHasOnlyItsWriters :
    (∃ t, exec (.staZp 0xFF) (acrossTop []) = .next t) ∧ Stores (.staZp 0xFF) ∧
      instrAddress (.staZp 0xFF) (acrossTop []) ≠ some 0x0100 ∧
      (∃ t, exec .aslAcc (acrossTop []) = .next t) ∧ ¬ Stores .aslAcc :=
  ⟨⟨_, rfl⟩, .inl rfl, by decide, ⟨_, rfl⟩, fun h => by rcases h with h | h <;> revert h <;> decide⟩

theorem hypotheses_NoControlTransfer : (∃ t, exec .inx (acrossTop []) = .next t) ∧ Instr.inx ≠ .brk := ⟨⟨_, rfl⟩, by decide⟩

/-- Two cores that differ in both inert flags, about to add. -/
theorem hypotheses_InterruptAndDecimalFlagsAreInert :
    SameButInertFlags (acrossTop [0x69#8, 0x09#8]) { acrossTop [0x69#8, 0x09#8] with p := 0xF3 } ∧
      (∃ t, step (acrossTop [0x69#8, 0x09#8]) = .next t) ∧
      ∃ t, step { acrossTop [0x69#8, 0x09#8] with p := 0xF3 } = .next t := by
  refine ⟨⟨rfl, rfl, rfl, ?_, rfl, rfl, rfl, rfl⟩, ⟨_, rfl⟩, ⟨_, rfl⟩⟩
  intro i hi hn
  have h : i = 0 ∨ i = 1 ∨ i = 4 ∨ i = 5 ∨ i = 6 ∨ i = 7 := by simp at hn; omega
  rcases h with rfl | rfl | rfl | rfl | rfl | rfl <;> rfl

theorem hypotheses_StoreAfterStepIsItsListedWrites : ∃ t, step (acrossTop [0x1E#8, 0xFF#8, 0xFF#8]) = .next t := ⟨_, rfl⟩

/-- Two cores whose stores differ at 0x4000, which the step of neither reads. -/
theorem hypotheses_StepDependsOnlyOnListedReads :
    SameButStore (state 1 2 3 4 0x8000 .running [(0x8000, 0xA5), (0x8001, 0x10), (0x0010, 0x77)])
        (state 1 2 3 4 0x8000 .running [(0x8000, 0xA5), (0x8001, 0x10), (0x0010, 0x77), (0x4000, 0x99)]) ∧
      (∀ b, Access.read b ∈ stepAccesses (state 1 2 3 4 0x8000 .running [(0x8000, 0xA5), (0x8001, 0x10), (0x0010, 0x77)]) →
        (store [(0x8000, 0xA5), (0x8001, 0x10), (0x0010, 0x77), (0x4000, 0x99)]).read b =
          (store [(0x8000, 0xA5), (0x8001, 0x10), (0x0010, 0x77)]).read b) ∧
      (∃ t, step (state 1 2 3 4 0x8000 .running [(0x8000, 0xA5), (0x8001, 0x10), (0x0010, 0x77)]) = .next t) ∧
      ∃ t, step (state 1 2 3 4 0x8000 .running [(0x8000, 0xA5), (0x8001, 0x10), (0x0010, 0x77), (0x4000, 0x99)]) =
        .next t := by
  refine ⟨by constructor <;> rfl, ?_, ⟨_, rfl⟩, ⟨_, rfl⟩⟩
  intro b hb
  have haccesses : stepAccesses (state 1 2 3 4 0x8000 .running [(0x8000, 0xA5), (0x8001, 0x10), (0x0010, 0x77)]) =
      [.read 0x8000, .read 0x8001, .read 0x0010] := by decide
  rw [haccesses] at hb
  simp only [List.mem_cons, Access.read.injEq, List.not_mem_nil, or_false] at hb
  rcases hb with rfl | rfl | rfl <;> decide

/-- A Running state of the invariant, with a store of its own, and its step. -/
theorem hypotheses_StepKeepsTheInvariant :
    Inv (state 0xFF 0xFF 0x00 0xCF 0xFFFF .running [(0xFFFF, 0x85), (0x0000, 0xFF)]) ∧
      ∃ t, step (state 0xFF 0xFF 0x00 0xCF 0xFFFF .running [(0xFFFF, 0x85), (0x0000, 0xFF)]) = .next t :=
  ⟨⟨rfl, rfl, rfl, rfl, .inl rfl, fun h => absurd rfl h⟩, _, rfl⟩

/-- For the statements about reachable states: power-on, a load, and a reset with a step. -/
theorem hypotheses_ReachableStatesMeetTheInvariant :
    ∃ t, serve { resetReq := true, stepReq := true } (State.powerOn.setMem (loadedStore [0xA9#8, 0x05#8] [])) = .next t ∧
      Reachable t := by
  have hload : load [0xA9#8, 0x05#8] State.powerOn =
    .next (State.powerOn.setMem (loadedStore [0xA9#8, 0x05#8] [])) := rfl
  have hserve : ∃ t, serve { resetReq := true, stepReq := true }
    (State.powerOn.setMem (loadedStore [0xA9#8, 0x05#8] [])) = .next t := ⟨_, rfl⟩
  obtain ⟨t, ht⟩ := hserve
  exact ⟨t, ht, .serve _ (.load _ .powerOn hload) ht⟩

theorem hypotheses_OnlyResetLeavesHalted :
    State.powerOn.runState = .halted ∧ (∃ t, serve { resetReq := false, stepReq := true } State.powerOn = .next t) ∧
      ∃ t, load [0xA9#8] State.powerOn = .next t := ⟨rfl, ⟨_, rfl⟩, _, rfl⟩

/-- For both statements about load: the empty program, the longest accepted one, the shortest rejected one. -/
theorem hypotheses_LoadMeetsItsInterface :
    State.powerOn.runState = .halted ∧ ([] : List Byte).length ≤ 32768 ∧
      (List.replicate 32768 (0xEA#8)).length ≤ 32768 ∧ (List.replicate 32769 (0xEA#8)).length > 32768 :=
  ⟨rfl, Nat.zero_le _, Nat.le_of_eq List.length_replicate, by rw [List.length_replicate]; exact Nat.lt_succ_self _⟩

/-- The longest accepted program. -/
theorem hypotheses_LoadThenResetStartsAtTheProgram :
    State.powerOn.runState = .halted ∧ (List.replicate 32768 (0xEA#8)).length ≤ 32768 :=
  ⟨rfl, Nat.le_of_eq List.length_replicate⟩

/-- A core Halted by a fault. -/
theorem hypotheses_HaltedCoreStaysAsItIs :
    ∃ t, step (acrossTop [0xEA#8]) = .next t ∧ t.runState = .halted ∧ t.faultCause = .unimplementedOpcode :=
  ⟨_, rfl, rfl, rfl⟩

theorem hypotheses_ReservedFlagBitsStayZero :
    (∃ t, exec .sei State.reset = .next t) ∧ Reachable State.powerOn := ⟨⟨_, rfl⟩, .powerOn⟩

/-- A run that ends (A9 05 00 placed at PC), one step short of its end and at it. -/
theorem hypotheses_RunStepsUntilHalted :
    (∃ t, run 1 (acrossTop [0xA9#8, 0x05#8, 0x00#8]) = .next t ∧ t.runState = .running) ∧
      ∃ t, run 2 (acrossTop [0xA9#8, 0x05#8, 0x00#8]) = .next t ∧ t.runState = .halted :=
  ⟨⟨_, rfl, rfl⟩, _, rfl, rfl⟩

/-- Both ends of a run: the halt opcode, and a byte outside the table. -/
theorem hypotheses_TheLastOpcodeTellsHowTheRunEnded :
    (∃ t, step (acrossTop [0x00#8]) = .next t ∧ t.runState = .halted) ∧
      (∃ t, step (acrossTop [0xEA#8]) = .next t ∧ t.runState = .halted) ∧
      (acrossTop [0x00#8]).faultCause = .none ∧ (acrossTop [0xEA#8]).faultCause = .none ∧
      (acrossTop [0x00#8]).runState = .running ∧ (acrossTop [0xEA#8]).runState = .running :=
  ⟨⟨_, rfl, rfl⟩, ⟨_, rfl, rfl⟩, rfl, rfl, rfl, rfl⟩

/-- Two stores written in different orders, one of them with a byte written and zeroed again. -/
theorem hypotheses_StoreIsDeterminedByItsReads :
    (store [(0x0010, 0x01), (0xFFFF, 0x02)]).wf = true ∧
      (store [(0xFFFF, 0x02), (0x4000, 0x03), (0x0010, 0x01), (0x4000, 0x00)]).wf = true ∧
      ∀ b, (store [(0x0010, 0x01), (0xFFFF, 0x02)]).read b =
        (store [(0xFFFF, 0x02), (0x4000, 0x03), (0x0010, 0x01), (0x4000, 0x00)]).read b := by
  have hsame : store [(0x0010, 0x01), (0xFFFF, 0x02)] =
      store [(0xFFFF, 0x02), (0x4000, 0x03), (0x0010, 0x01), (0x4000, 0x00)] := by decide
  exact ⟨by decide, by decide, fun b => by rw [hsame]⟩

theorem hypotheses_FetchWordRunsItsInstruction :
    tableWordBytes 24 0xFFFFAD = encode (.ldaAbs 0xFFFF) ++ [] ∧
      tableWordBytes 8 0xE8 = encode .inx ++ [0x00#8, 0x00#8] := by decide

end Sys2Proof.Tests
end

section
/-! PROOFS. What an instruction does, in one equation for all 41: the effect its family's rule gives, at the address its
mode's formula gives, and then PC past the operand bytes. The facts about instructions below are read off the ten effects. -/

namespace Sys2Proof.Machine

open Sys2Proof.Claims

/-- The effective address of an instruction; 0 where its mode has none (`41_addressing_modes.md` R100). -/
def dataAddress (i : Instr) (s : State) : Word := (instrAddress i s).getD 0#16

/-- The data byte an instruction works on: the immediate operand, or the byte of the store at the effective address. -/
def dataByte (i : Instr) (s : State) : Byte :=
  match i.mode with
  | .immediate => (encode i).getD 1 0#8
  | _ => s.mem.read (dataAddress i s)

/-- The effect of an instruction by its family's rule, before PC moves past the operand bytes
(`40_fetch_decode_execute.md` R80). -/
def effect (i : Instr) (s : State) : State :=
  match i.family with
  | .lda => ldaValue (dataByte i s) s
  | .sta => staTo (dataAddress i s) s
  | .adc => adcValue (dataByte i s) s
  | .and => andValue (dataByte i s) s
  | .asl => if i = .aslAcc then aslA s else aslAt (dataAddress i s) s
  | .tax => toX (alu .pass s.a s.a false) s
  | .inx => toX (alu .inc s.a s.x false) s
  | .sei => s.setP (setFlag s.p .I true)
  | .sed => s.setP (setFlag s.p .D true)
  | .brk => s.setRunState .halted

/-- The implied mode has no operand bytes, so PC stays. -/
@[simp] theorem State.addLen_implied (s : State) : s.addLen .implied = s :=
  State.ext_fields rfl rfl rfl rfl (BitVec.add_zero s.pc) rfl rfl rfl

/-- Every instruction answers its effect, with PC past the operand bytes. A word operand is put together again from the two
bytes it is encoded in. -/
theorem exec_eq (i : Instr) (s : State) : exec i s = .next ((effect i s).addLen i.mode) := by
  cases i with
  | brk => exact congrArg Host.Outcome.next (State.addLen_implied _).symm
  | ldaAbs w | ldaAbsX w | ldaAbsY w | staAbs w | staAbsX w | staAbsY w | adcAbs w | adcAbsX w | adcAbsY w
  | andAbs w | andAbsX w | andAbsY w | aslAbs w | aslAbsX w =>
    conv_lhs => rw [← wordOf_bytes w]
    rfl
  | _ => rfl

theorem exec_next {i : Instr} {s t : State} (h : exec i s = .next t) : t = (effect i s).addLen i.mode := by
  rw [exec_eq] at h
  exact (Host.Outcome.next.inj h).symm

/-! ### Each field after an effect -/

variable (i : Instr) (s : State)

/-- What every effect leaves alone: Y, PC and the fault latch, and the run state unless the family is BRK's (`10_state.md`
R13, `40_fetch_decode_execute.md` R87). -/
theorem effect_frame : (effect i s).y = s.y ∧ (effect i s).pc = s.pc ∧ (effect i s).faultCause = s.faultCause ∧
    (effect i s).runState = if i.family = .brk then .halted else s.runState := by
  unfold effect
  cases i.family
  case asl => dsimp only; split <;> exact ⟨rfl, rfl, rfl, rfl⟩
  all_goals exact ⟨rfl, rfl, rfl, rfl⟩

@[simp] theorem effect_y : (effect i s).y = s.y :=
  have ⟨hy, _, _, _⟩ := effect_frame i s
  hy

@[simp] theorem effect_pc : (effect i s).pc = s.pc :=
  have ⟨_, hpc, _, _⟩ := effect_frame i s
  hpc

@[simp] theorem effect_faultCause : (effect i s).faultCause = s.faultCause :=
  have ⟨_, _, hcause, _⟩ := effect_frame i s
  hcause

@[simp] theorem effect_runState : (effect i s).runState = if i.family = .brk then .halted else s.runState :=
  have ⟨_, _, _, hrun⟩ := effect_frame i s
  hrun

/-- An effect leaves the store as it is, or writes one byte at the effective address. -/
theorem effect_mem : (effect i s).mem = s.mem ∨ ∃ v, (effect i s).mem = s.mem.write (dataAddress i s) v := by
  unfold effect
  cases i.family
  case sta => exact .inr ⟨_, rfl⟩
  case asl =>
    dsimp only
    split
    · exact .inl rfl
    · exact .inr ⟨_, rfl⟩
  all_goals exact .inl rfl

variable {i s}

/-- The families that do not write A, ASL in its memory forms (`10_state.md` R11). -/
theorem effect_a (hf : i.family ∉ [Family.lda, .adc, .and]) (hacc : i ≠ .aslAcc) : (effect i s).a = s.a := by
  unfold effect
  cases hfam : i.family
  case lda | adc | and => simp [hfam] at hf
  case asl => rw [if_neg hacc]; rfl
  all_goals rfl

/-- The families that do not write X (R12). -/
theorem effect_x (hf : i.family ∉ [Family.tax, .inx]) : (effect i s).x = s.x := by
  unfold effect
  cases hfam : i.family
  case tax | inx => simp [hfam] at hf
  case asl => dsimp only; split <;> rfl
  all_goals rfl

/-- The bits of P a family's row does not list (R21). -/
theorem effect_p_bit {k : Nat} (hk : k < 8) (hw : k ∉ writtenFlags i.family) : (effect i s).p[k] = s.p[k] := by
  unfold effect
  cases hfam : i.family <;> simp only [hfam, writtenFlags, List.mem_cons, List.not_mem_nil, or_false, not_or] at hw
  case asl => dsimp only; split <;> simp [hw]
  all_goals simp [hw]

/-! ### The inert flags -/

/-- An address depends on the operand bytes, PC, X, Y and the store, and not on P (R100). -/
@[simp] theorem dataAddress_setP (q : Byte) : dataAddress i (s.setP q) = dataAddress i s := by
  unfold dataAddress instrAddress
  cases i.mode <;> rfl

@[simp] theorem dataByte_setP (q : Byte) : dataByte i (s.setP q) = dataByte i s := by
  unfold dataByte
  rw [dataAddress_setP]
  rfl

/-- Outside P an effect reads no flag but Carry. -/
theorem effect_setP {q : Byte} (hC : q[0] = s.p[0]) :
    effect i (s.setP q) = (effect i s).setP (effect i (s.setP q)).p := by
  unfold effect
  rw [dataAddress_setP, dataByte_setP]
  cases i.family
  case adc => exact State.ext_fields (by simp [hC]) rfl rfl rfl rfl rfl rfl rfl
  case asl => dsimp only; split <;> rfl
  all_goals rfl

/-- A bit of P after an effect depends on that bit and on Carry alone. -/
theorem effect_setP_p_bit {q : Byte} {k : Nat} (hk : k < 8) (hC : q[0] = s.p[0]) (hbit : q[k] = s.p[k]) :
    (effect i (s.setP q)).p[k] = (effect i s).p[k] := by
  unfold effect
  rw [dataAddress_setP, dataByte_setP]
  cases i.family
  case asl => dsimp only; split <;> simp [hbit]
  all_goals simp [hC, hbit]

end Sys2Proof.Machine
end

section
/-! PROOFS. The three things a step can do (`40_fetch_decode_execute.md` R80, R81, `60_exceptions.md` R201), each from what
decides it, and as the one case split on a step that answered. -/

namespace Sys2Proof.Machine

variable {s t : State}

theorem step_of_halted (hr : s.runState = .halted) : step s = .next s := by
  simp [step, hr]

theorem step_of_unimplemented (hr : s.runState = .running) (hl : lookup (s.mem.read s.pc) = none) :
    step s = .next (takeUnimplementedOpcode s.incPc) := by
  simp [step, hr, decode_fetch_unimplemented s hl]

theorem step_of_decoded {i : Instr} {rest : List Byte} (hr : s.runState = .running)
    (hdec : decode (fetchBytes s) = .ok (i, rest)) : step s = .next ((effect i s.incPc).addLen i.mode) := by
  simp [step, hr, hdec, exec_eq]

/-- Every state a step can answer. -/
theorem step_next (h : step s = .next t) :
    (s.runState = .halted ∧ t = s) ∨
    (s.runState = .running ∧ lookup (s.mem.read s.pc) = none ∧ t = takeUnimplementedOpcode s.incPc) ∨
    ∃ i, s.runState = .running ∧ decode (fetchBytes s) = .ok (i, []) ∧ t = (effect i s.incPc).addLen i.mode := by
  rcases step_cases s with ⟨hr, hs⟩ | ⟨hr, hl, hs⟩ | ⟨i, hr, -, hdec, hs⟩ <;> rw [hs] at h
  · exact .inl ⟨hr, (Host.Outcome.next.inj h).symm⟩
  · exact .inr (.inl ⟨hr, hl, (Host.Outcome.next.inj h).symm⟩)
  · exact .inr (.inr ⟨i, hr, hdec, exec_next h⟩)

end Sys2Proof.Machine
end

section
/-! PROOFS. InterruptDisable and Decimal are inert (`10_state.md` R18, R19): two cores that differ at most in them are one core
with two values of P, which no fetch reads and of which an effect reads Carry alone. -/

namespace Sys2Proof.Machine

open Sys2Proof.Claims

/-- P differs in the inert flags at most. -/
theorem sameButInertFlags_setP {s : State} {q : Byte} (hq : KeepsFlagsBut [2, 3] s (s.setP q)) :
    SameButInertFlags s (s.setP q) := ⟨rfl, rfl, rfl, hq, rfl, rfl, rfl, rfl⟩

theorem eq_setP_of_sameButInertFlags {s s' : State} (h : SameButInertFlags s s') : s' = s.setP s'.p :=
  State.ext_fields h.a h.x h.y rfl h.pc h.runState h.faultCause h.mem

theorem effect_sameButInertFlags (i : Instr) {s : State} {q : Byte} (hq : KeepsFlagsBut [2, 3] s (s.setP q)) :
    SameButInertFlags (effect i s) (effect i (s.setP q)) := by
  have hC : q[0] = s.p[0] := hq 0 (by decide) (by decide)
  rw [effect_setP hC]
  refine sameButInertFlags_setP fun k hk hkept => ?_
  exact effect_setP_p_bit hk hC (hq k hk hkept)

theorem addLen_sameButInertFlags (mode : Mode) {s s' : State} (h : SameButInertFlags s s') :
    SameButInertFlags (s.addLen mode) (s'.addLen mode) :=
  { h with pc := congrArg (· + BitVec.ofNat 16 mode.len) h.pc }

/-- Settles O37: with only P different both steps idle, both take the exception, or both run the same instruction. -/
theorem interruptAndDecimalFlagsAreInert : Obligations.InterruptAndDecimalFlagsAreInert := by
  intro s s' t t' h ht ht'
  obtain ⟨q, rfl, hq⟩ : ∃ q, s' = s.setP q ∧ KeepsFlagsBut [2, 3] s (s.setP q) :=
    ⟨s'.p, eq_setP_of_sameButInertFlags h, h.otherFlags⟩
  rcases step_next ht with ⟨hr, rfl⟩ | ⟨hr, hl, rfl⟩ | ⟨i, hr, hdec, rfl⟩
  · rw [step_of_halted (s := t.setP q) hr] at ht'
    cases ht'
    exact sameButInertFlags_setP hq
  · rw [step_of_unimplemented (s := s.setP q) hr hl] at ht'
    cases ht'
    exact sameButInertFlags_setP hq
  · rw [step_of_decoded (s := s.setP q) hr hdec] at ht'
    cases ht'
    exact addLen_sameButInertFlags i.mode (effect_sameButInertFlags i (s := s.incPc) hq)

end Sys2Proof.Machine
end

section
/-! PROOFS. Who writes the registers and the flags (`10_state.md` R11 to R14, R20, R21), and the table of the arithmetic unit
(R33). -/

namespace Sys2Proof.Machine

open Sys2Proof.Claims

/-- TAX and INX are the only instructions of their families (`30_encoding.md` R66). -/
theorem family_notMem_tax_inx {i : Instr} (htax : i ≠ .tax) (hinx : i ≠ .inx) : i.family ∉ [Family.tax, .inx] := by
  cases i with
  | tax => exact absurd rfl htax
  | inx => exact absurd rfl hinx
  | _ => simp [Instr.family, Instr.descriptor]

/-- Settles O32: each register is read off the effect. -/
theorem registersHaveOnlyTheirWriters : Obligations.RegistersHaveOnlyTheirWriters := by
  intro i s t h
  rw [exec_next h]
  exact ⟨effect_a, fun htax hinx => effect_x (family_notMem_tax_inx htax hinx), effect_y i s⟩

/-- Settles O33: the bits a family does not write are kept by its effect, and `finish` writes none. -/
theorem flagsHaveOnlyTheirWriters : Obligations.FlagsHaveOnlyTheirWriters := by
  intro i s t h k hk hw
  rw [exec_next h]
  exact effect_p_bit hk hw

/-- No row of the table of R21 lists a reserved bit. -/
theorem reserved_notMem_writtenFlags (f : Family) : 4 ∉ writtenFlags f ∧ 5 ∉ writtenFlags f := by
  cases f <;> decide

/-- Bit 7 of a byte as a number. -/
theorem getLsbD_seven_eq_decide (v : Byte) : v.getLsbD 7 = decide (v.toNat ≥ 128) :=
  BitVec.msb_eq_decide v

theorem beq_zero_eq_decide (v : Byte) : (v == 0#8) = decide (v.toNat = 0) := by
  rw [Bool.eq_iff_iff, beq_iff_eq, decide_eq_true_iff]
  exact BitVec.toNat_inj.symm

/-- Settles O27, from the laws of the arithmetic unit, function by function. -/
theorem aluMeetsItsTable : Obligations.AluMeetsItsTable := by
  intro a b cin
  have hasl : (b <<< 1).toNat = 2 * b.toNat % 256 := by
    rw [BitVec.toNat_shiftLeft, Nat.shiftLeft_eq, Nat.mul_comm]
  refine ⟨rfl, rfl, rfl, aluResult_adc_toNat a b cin, rfl, rfl, fun i => BitVec.getLsbD_and, rfl, rfl, hasl,
    getLsbD_seven_eq_decide b, rfl, BitVec.toNat_add b 1#8, rfl, rfl, fun fn => ?_, rfl, rfl, rfl, rfl, rfl⟩
  exact ⟨beq_zero_eq_decide _, getLsbD_seven_eq_decide _⟩

end Sys2Proof.Machine
end

section
/-! PROOFS. The invariant: it holds at power-on, after a reset of any canonical store and after a load, and every step keeps it
(`10_state.md` R13, R20, R24); so it holds of every reachable state (`40_fetch_decode_execute.md` R88). -/

namespace Sys2Proof.Machine

open Sys2Proof.Claims

theorem inv_powerOn : Inv State.powerOn where
  memWf := rfl
  yZero := rfl
  reserved4 := rfl
  reserved5 := rfl
  cause := .inl rfl
  faultHalts _ := rfl

/-- A reset zeroes every field the invariant speaks of but the store. -/
theorem inv_resetCore {s : State} (hwf : s.mem.wf = true) : Inv (resetCore s) where
  memWf := hwf
  yZero := rfl
  reserved4 := by simp
  reserved5 := by simp
  cause := .inl rfl
  faultHalts hne := absurd rfl hne

theorem inv_load {bytes : List Byte} {s t : State} (hs : Inv s) (h : load bytes s = .next t) : Inv t := by
  obtain ⟨-, -, rfl⟩ := load_next s h
  exact { hs with memWf := loadedStore_wf bytes s.mem hs.memWf }

/-- The invariant does not speak of PC. -/
theorem inv_setPc {s : State} (hs : Inv s) (pc : Word) : Inv (s.setPc pc) := { hs with }

theorem inv_takeUnimplementedOpcode {s : State} (hs : Inv s) : Inv (takeUnimplementedOpcode s) :=
  { hs with
    cause := .inr rfl
    faultHalts := fun _ => rfl }

theorem effect_mem_wf (i : Instr) {s : State} (hwf : s.mem.wf = true) : (effect i s).mem.wf = true := by
  rcases effect_mem i s with h | ⟨v, h⟩ <;> rw [h]
  · exact hwf
  · exact Memory.write_wf _ _ _ hwf

/-- The reserved bits of P after an effect (R20). -/
theorem effect_reserved (i : Instr) (s : State) :
    (effect i s).p.getLsbD 4 = s.p.getLsbD 4 ∧ (effect i s).p.getLsbD 5 = s.p.getLsbD 5 :=
  have ⟨h4, h5⟩ := reserved_notMem_writtenFlags i.family
  ⟨effect_p_bit (by decide) h4, effect_p_bit (by decide) h5⟩

theorem inv_effect (i : Instr) {s : State} (hs : Inv s) : Inv (effect i s) where
  memWf := effect_mem_wf i hs.memWf
  yZero := (effect_y i s).trans hs.yZero
  reserved4 := (effect_reserved i s).1.trans hs.reserved4
  reserved5 := (effect_reserved i s).2.trans hs.reserved5
  cause := by
    rw [effect_faultCause]
    exact hs.cause
  faultHalts hne := by
    rw [effect_faultCause] at hne
    simp [hs.faultHalts hne]

/-- Settles O41: each of the three things a step can do keeps the invariant. -/
theorem stepKeepsTheInvariant : Obligations.StepKeepsTheInvariant := by
  intro s t hs ht
  have hinc : Inv s.incPc := inv_setPc hs _
  rcases step_next ht with ⟨-, rfl⟩ | ⟨-, -, rfl⟩ | ⟨i, -, -, rfl⟩
  · exact hs
  · exact inv_takeUnimplementedOpcode hinc
  · exact inv_setPc (inv_effect i hinc) _

theorem inv_serve {req : Requests} {s t : State} (hs : Inv s) (h : serve req s = .next t) : Inv t := by
  have hfrom : Inv (if req.resetReq then resetCore s else s) := by
    split
    · exact inv_resetCore hs.memWf
    · exact hs
  unfold serve at h
  dsimp only at h
  split at h
  · exact stepKeepsTheInvariant _ t hfrom h
  · cases h
    exact hfrom

/-- Settles O43, by induction on how the state was reached. -/
theorem reachableStatesMeetTheInvariant : Obligations.ReachableStatesMeetTheInvariant := by
  intro s hs
  induction hs with
  | powerOn => exact inv_powerOn
  | load _ _ h ih => exact inv_load ih h
  | serve _ _ h ih => exact inv_serve ih h

/-- Settles O34: no row lists a reserved bit, and the invariant has both 0 in every reachable state. -/
theorem reservedFlagBitsStayZero : Obligations.ReservedFlagBitsStayZero := by
  refine ⟨fun i s t h => ?_, resetCore_p, fun s hs => ?_⟩
  · rw [exec_next h]
    exact effect_reserved i s
  · have hinv := reachableStatesMeetTheInvariant s hs
    exact ⟨hinv.reserved4, hinv.reserved5⟩

/-- The model's first state is a reset on the store as power-on leaves it (`70_reset_and_hazards.md` R232). -/
theorem reset_eq_resetCore_powerOn : State.reset = resetCore State.powerOn := rfl

/-- Settles O42, as the reset of a state with a canonical store. -/
theorem resetStateMeetsTheInvariant : Obligations.ResetStateMeetsTheInvariant :=
  ⟨reset_eq_resetCore_powerOn, reset_eq_resetCore_powerOn ▸ inv_resetCore inv_powerOn.memWf⟩

end Sys2Proof.Machine
end

section
/-! PROOFS. Power-on and reset (`10_state.md` R27), leaving Halted (R23), and the output ports (R24, R36, R37). -/

namespace Sys2Proof.Machine

open Sys2Proof.Claims

/-- Settles O48: power-on field by field, its empty store reading 0x00 everywhere, and reset from the laws of `resetCore`. -/
theorem powerOnAndResetValues : Obligations.PowerOnAndResetValues := by
  constructor
  · exact ⟨rfl, rfl, rfl, rfl, rfl, rfl, rfl, Memory.read_nil⟩
  · intro s
    exact ⟨resetCore_a s, resetCore_x s, resetCore_y s, resetCore_p s, resetCore_pc s, resetCore_runState s, rfl,
      fun b => congrArg (·.read b) (resetCore_mem s)⟩

theorem serve_of_halted {req : Requests} {s : State} (hreq : req.resetReq = false) (hr : s.runState = .halted) :
    serve req s = .next s := by
  simp [serve, hreq, step_of_halted hr]

/-- Settles O50: a request without a reset finds nothing to do, and a load writes the store alone. -/
theorem onlyResetLeavesHalted : Obligations.OnlyResetLeavesHalted := by
  intro s t hr
  constructor
  · intro req hreq h
    rw [serve_of_halted hreq hr] at h
    exact (Host.Outcome.next.inj h).symm
  · intro bytes h
    obtain ⟨-, -, rfl⟩ := load_next s h
    exact ⟨rfl, rfl, rfl, rfl, rfl, rfl, rfl⟩

/-- Equal codes are equal causes (`60_exceptions.md` R200). -/
theorem FaultCause.code_inj {c d : FaultCause} (h : c.code = d.code) : c = d := by
  revert h
  cases c <;> cases d <;> decide

theorem outputs_halted_iff (s : State) : s.outputs.halted = true ↔ s.runState = .halted := beq_iff_eq

/-- The cause port shows a cause's code exactly when that cause is latched (R24, R36). -/
theorem outputs_faultCause_iff (s : State) (c : FaultCause) : s.outputs.faultCause = c.code ↔ s.faultCause = c :=
  ⟨FaultCause.code_inj, congrArg FaultCause.code⟩

/-- Settles O55: both ends of a run are read off the two ports. -/
theorem outputsTellHowTheRunEnded : Obligations.OutputsTellHowTheRunEnded := by
  intro s
  have hend (c : FaultCause) : s.runState = .halted ∧ s.faultCause = c ↔
      s.outputs.halted = true ∧ s.outputs.faultCause = c.code :=
    and_congr (outputs_halted_iff s).symm (outputs_faultCause_iff s c).symm
  exact ⟨hend .none, hend .unimplementedOpcode, rfl, rfl, rfl, rfl, rfl⟩

end Sys2Proof.Machine
end

section
/-! PROOFS. The canonical form of the store (`20_memory.md` R41, R43): it is determined by what it reads. -/

namespace Sys2Proof.Machine

theorem Memory.readAt_cons (k a : Nat) (v : Byte) (m : Memory) :
    Memory.readAt ((k, v) :: m) a = if k = a then v else Memory.readAt m a := rfl

theorem Memory.wfFrom_cons {low k : Nat} {v : Byte} {m : Memory} : Memory.wfFrom low ((k, v) :: m) = true ↔
    low ≤ k ∧ k < Config.memSize ∧ v ≠ Config.unlistedByte ∧ Memory.wfFrom (k + 1) m = true := by
  simp [Memory.wfFrom, and_assoc]

/-- A canonical list names no location below its bound. -/
theorem Memory.le_of_readAt_ne {m : Memory} {low a : Nat} (hw : Memory.wfFrom low m = true)
    (hne : Memory.readAt m a ≠ Config.unlistedByte) : low ≤ a := by
  induction m generalizing low with
  | nil => exact absurd rfl hne
  | cons cell m ih =>
    obtain ⟨k, v⟩ := cell
    obtain ⟨hlow, -, -, htail⟩ := Memory.wfFrom_cons.mp hw
    by_cases hka : k = a
    · exact hka ▸ hlow
    · rw [Memory.readAt_cons, if_neg hka] at hne
      have := ih htail hne
      omega

/-- What a canonical list reads at its first location is not what an unlisted one holds. -/
theorem Memory.readAt_head_ne {low k : Nat} {v : Byte} {m : Memory} (hw : Memory.wfFrom low ((k, v) :: m) = true) :
    Memory.readAt ((k, v) :: m) k ≠ Config.unlistedByte := by
  obtain ⟨-, -, hv, -⟩ := Memory.wfFrom_cons.mp hw
  rwa [Memory.readAt_cons, if_pos rfl]

/-- What follows an entry reads as unlisted at the entry's own location. -/
theorem Memory.readAt_tail {k : Nat} {m : Memory} (hw : Memory.wfFrom (k + 1) m = true) :
    Memory.readAt m k = Config.unlistedByte := by
  by_contra hne
  have := Memory.le_of_readAt_ne hw hne
  omega

/-- Of two canonical lists that read the same, the second starts no later than the first. -/
theorem Memory.head_le {low low' k k' : Nat} {v v' : Byte} {m m' : Memory}
    (hw : Memory.wfFrom low ((k, v) :: m) = true) (hw' : Memory.wfFrom low' ((k', v') :: m') = true)
    (h : ∀ a < Config.memSize, Memory.readAt ((k, v) :: m) a = Memory.readAt ((k', v') :: m') a) : k' ≤ k := by
  obtain ⟨-, hk, -, -⟩ := Memory.wfFrom_cons.mp hw
  obtain ⟨-, hrest⟩ := Memory.wfFrom_cons.mp hw'
  exact Memory.le_of_readAt_ne (Memory.wfFrom_cons.mpr ⟨le_refl k', hrest⟩)
    (h k hk ▸ Memory.readAt_head_ne hw)

/-- Canonical lists with the same reads start with the same entry, and their tails have the same reads again. -/
theorem Memory.eq_of_readAt_eq {m m' : Memory} {low low' : Nat} (hw : Memory.wfFrom low m = true)
    (hw' : Memory.wfFrom low' m' = true)
    (h : ∀ a < Config.memSize, Memory.readAt m a = Memory.readAt m' a) : m = m' := by
  induction m generalizing low low' m' with
  | nil =>
    cases m' with
    | nil => rfl
    | cons cell' m' =>
      obtain ⟨-, hk', -, -⟩ := Memory.wfFrom_cons.mp hw'
      exact absurd (h cell'.1 hk').symm (Memory.readAt_head_ne hw')
  | cons cell m ih =>
    obtain ⟨k, v⟩ := cell
    obtain ⟨-, hk, -, htail⟩ := Memory.wfFrom_cons.mp hw
    cases m' with
    | nil => exact absurd (h k hk) (Memory.readAt_head_ne hw)
    | cons cell' m' =>
      obtain ⟨k', v'⟩ := cell'
      obtain ⟨-, -, -, htail'⟩ := Memory.wfFrom_cons.mp hw'
      obtain rfl : k = k' := le_antisymm (Memory.head_le hw' hw fun a ha => (h a ha).symm) (Memory.head_le hw hw' h)
      have hv : v = v' := by simpa [Memory.readAt_cons] using h k hk
      have hm : m = m' := ih htail htail' fun a ha => by
        by_cases hka : k = a
        · rw [← hka, Memory.readAt_tail htail, Memory.readAt_tail htail']
        · simpa [Memory.readAt_cons, hka] using h a ha
      rw [hv, hm]

/-- Settles O54: every location of the store is an address, so equal reads are equal at every location. -/
theorem storeIsDeterminedByItsReads : Obligations.StoreIsDeterminedByItsReads := by
  intro m m' hw hw' h
  refine Memory.eq_of_readAt_eq hw hw' fun a ha => ?_
  have hread := h (BitVec.ofNat 16 a)
  rwa [Memory.read, Memory.read, BitVec.toNat_ofNat, Nat.mod_eq_of_lt ha] at hread

end Sys2Proof.Machine
end

section
/-! PROOFS. What decoding gives back (`30_encoding.md` R60, R61, R63, R66): the bytes an instruction was decoded from are its
encoding, so the address it computes from its operand is the one `resolve` reads at PC (`41_addressing_modes.md` R100). -/

namespace Sys2Proof.Machine

open Sys2Proof.Claims

/-- The opcode bytes of the table are those of R66. -/
theorem opcodeTable_perm : (opcodeTable.map (·.1)).Perm implementedOpcodes := by decide

/-- An opcode byte outside the 41 has no entry (R68). -/
theorem lookup_eq_none_iff {op : Byte} : lookup op = none ↔ op ∉ implementedOpcodes := by
  rw [← opcodeTable_perm.mem_iff]
  simp only [lookup, Option.map_eq_none_iff, List.find?_eq_none, List.mem_map, beq_iff_eq, Prod.exists,
    exists_and_right, exists_eq_right, not_exists, Prod.forall]
  exact ⟨fun h d hd => h op d hd rfl, fun h a d hd heq => h d (heq ▸ hd)⟩

/-- An entry of the table with its operand bytes is an instruction, which is encoded in the opcode byte and as many of the
operand bytes as its mode has. -/
theorem encode_instrOf_row {row : Byte × Descriptor} (hrow : row ∈ opcodeTable) (b0 b1 : Byte) :
    ∃ i, instrOf row.2 b0 b1 = some i ∧ encode i = row.1 :: [b0, b1].take row.2.mode.len := by
  fin_cases hrow <;> exact ⟨_, rfl, by simp [encode, Mode.len]⟩

theorem encode_of_instrOf {op : Byte} {d : Descriptor} {b0 b1 : Byte} {i : Instr} (hl : lookup op = some d)
    (hi : instrOf d b0 b1 = some i) : encode i = op :: [b0, b1].take d.mode.len := by
  obtain ⟨j, hj, henc⟩ := encode_instrOf_row (lookup_mem hl) b0 b1
  cases hi.symm.trans hj
  exact henc

/-- The operand bytes that were split off stand at the front. -/
theorem eq_append_of_takeOperands {n : Nat} {bytes rest : List Byte} {b0 b1 : Byte}
    (h : takeOperands n bytes = some (b0, b1, rest)) : bytes = [b0, b1].take n ++ rest := by
  unfold takeOperands at h
  split at h <;> simp_all

/-- An instruction was decoded from its encoding and the bytes that were left over. -/
theorem eq_encode_append_of_decode {bytes rest : List Byte} {i : Instr} (h : decode bytes = .ok (i, rest)) :
    bytes = encode i ++ rest := by
  unfold decode at h
  split at h
  · cases h
  next op bytes =>
    split at h
    · cases h
    next d hl =>
      split at h
      · cases h
      next b0 b1 rest' hops =>
        split at h
        next j hj =>
          cases h
          rw [encode_of_instrOf hl hj, List.cons_append, ← eq_append_of_takeOperands hops]
        · cases h

/-- The encoding has the opcode byte and the operand bytes of the mode (R60, R62). -/
theorem encode_length (i : Instr) : (encode i).length = i.mode.len + 1 := by
  cases i <;> rfl

/-- Where an instruction's encoding stands at PC, its address is the resolved one. -/
theorem instrAddress_of_bytesAtPc {i : Instr} {s : State} (h : BytesAtPc s (encode i)) :
    instrAddress i s.incPc = resolve i.mode s.incPc := by
  rw [BytesAtPc, encode_length, Memory.readBytes] at h
  unfold instrAddress resolve
  rw [← h]
  cases i.mode <;> rfl

variable {s : State} {i : Instr} {rest : List Byte}

/-- The entry of a fetched instruction is that of the opcode byte at PC. -/
theorem lookup_of_decode_fetch (h : decode (fetchBytes s) = .ok (i, rest)) :
    lookup (s.mem.read s.pc) = some i.descriptor := by
  cases hl : lookup (s.mem.read s.pc) with
  | none => simp [decode_fetch_unimplemented s hl] at h
  | some d =>
    obtain ⟨j, hj, rfl⟩ := decode_fetch_implemented s hl
    rw [hj] at h
    cases h
    rfl

theorem bytesAtPc_of_decode_fetch (h : decode (fetchBytes s) = .ok (i, [])) : BytesAtPc s (encode i) := by
  have hbytes : fetchBytes s = encode i := by simpa using eq_encode_append_of_decode h
  rw [BytesAtPc, encode_length, ← hbytes, fetchBytes, operandLength_lookup (lookup_of_decode_fetch h)]
  rfl

theorem instrAddress_of_decode_fetch (h : decode (fetchBytes s) = .ok (i, [])) :
    instrAddress i s.incPc = resolve i.mode s.incPc :=
  instrAddress_of_bytesAtPc (bytesAtPc_of_decode_fetch h)

end Sys2Proof.Machine
end

section
/-! PROOFS. The data access of an instruction (`20_memory.md` R44, R50): which instructions have an address, which of those
write there, and that the writes listed are the effect on the store. -/

namespace Sys2Proof.Machine

open Sys2Proof.Claims

/-- Implied is the one mode without an address (`41_addressing_modes.md` R109). -/
theorem eaOf_eq_none_iff {mode : Mode} {b0 b1 : Byte} {s : State} : eaOf mode b0 b1 s = none ↔ mode = .implied := by
  cases mode <;> simp [eaOf]

theorem instrAddress_eq_some {i : Instr} (s : State) (h : i.mode ≠ .implied) :
    instrAddress i s = some (dataAddress i s) := by
  have hne : instrAddress i s ≠ none := mt eaOf_eq_none_iff.mp h
  obtain ⟨ea, hea⟩ := Option.ne_none_iff_exists'.mp hne
  rw [dataAddress, hea, Option.getD_some]

/-- The pairing of a family with a mode that an instruction has is one of R111. -/
theorem hasMode_family_mode (i : Instr) : i.family.hasMode i.mode = true := by
  cases i <;> rfl

/-- ASL A is the one ASL whose operand is not in memory (`44_shift.md` R171). -/
theorem eq_aslAcc_of_implied {i : Instr} (hf : i.family = .asl) (hm : i.mode = .implied) : i = .aslAcc := by
  cases i with
  | aslAcc => rfl
  | aslZp | aslZpx | aslAbs | aslAbsX => cases hm
  | _ => cases hf

/-- The families with a data access in every mode (R111). -/
theorem mode_ne_implied_of_family {i : Instr} (hf : i.family ∈ [Family.sta, .lda, .adc, .and]) : i.mode ≠ .implied := by
  intro hm
  have hpair := hasMode_family_mode i
  rw [hm] at hpair
  cases hfam : i.family <;> rw [hfam] at hf hpair
  case sta | lda | adc | and => cases hpair
  all_goals simp at hf

/-- A storing instruction has an address. -/
theorem mode_ne_implied_of_stores {i : Instr} (h : Stores i) : i.mode ≠ .implied := by
  rcases h with hf | ⟨-, hm⟩
  · exact mode_ne_implied_of_family (by simp [hf])
  · exact hm

theorem mode_ne_implied_of_asl {i : Instr} (hf : i.family = .asl) (hacc : i ≠ .aslAcc) : i.mode ≠ .implied :=
  fun hm => hacc (eq_aslAcc_of_implied hf hm)

/-- An instruction that does not store leaves the store as it is (R44). -/
theorem effect_mem_of_not_stores {i : Instr} (s : State) (h : ¬ Stores i) : (effect i s).mem = s.mem := by
  unfold effect
  cases hf : i.family
  case sta => exact absurd (.inl hf) h
  case asl =>
    obtain rfl : i = .aslAcc := by
      by_contra hacc
      exact h (.inr ⟨hf, mode_ne_implied_of_asl hf hacc⟩)
    rfl
  all_goals rfl

/-- Settles O35: what does not store keeps the store, and what stores writes at its effective address alone. -/
theorem memoryHasOnlyItsWriters : Obligations.MemoryHasOnlyItsWriters := by
  refine ⟨Memory.read_write, fun i s t h b hb => ?_⟩
  rw [exec_next h, State.addLen_mem]
  by_cases hst : Stores i
  · have hne : b ≠ dataAddress i s := by
      rintro rfl
      exact hb hst (instrAddress_eq_some s (mode_ne_implied_of_stores hst))
    rcases effect_mem i s with hm | ⟨v, hm⟩ <;> rw [hm]
    exact Memory.read_write_other s.mem v hne
  · rw [effect_mem_of_not_stores s hst]

/-- The accesses that form an address write nothing (R50). -/
theorem foldl_apply_addressReads (mode : Mode) (s : State) (m : Memory) :
    (addressReads mode s).foldl (fun m access => access.apply m) m = m := by
  cases mode <;> rfl

/-- The store after an effect is the store with the data access performed (R50). -/
theorem effect_mem_eq_foldl (i : Instr) (s : State) :
    (effect i s).mem = (dataAccesses i.family (instrAddress i s) s).foldl (fun m access => access.apply m) s.mem := by
  unfold effect
  cases hf : i.family
  case sta =>
    rw [instrAddress_eq_some s (mode_ne_implied_of_family (by simp [hf]))]
    rfl
  case asl =>
    by_cases hacc : i = .aslAcc
    · subst hacc
      rfl
    · rw [instrAddress_eq_some s (mode_ne_implied_of_asl hf hacc)]
      simp only [if_neg hacc]
      rfl
  all_goals cases instrAddress i s <;> rfl

end Sys2Proof.Machine
end

section
/-! PROOFS. The accesses of a step, as the three things a step can do (`20_memory.md` R50): the table, and the store after
the step. -/

namespace Sys2Proof.Machine

open Sys2Proof.Claims

variable {s t : State}

theorem stepAccesses_of_halted (hr : s.runState = .halted) : stepAccesses s = [] := by
  simp [stepAccesses, hr]

theorem stepAccesses_of_unimplemented (hr : s.runState = .running) (hl : lookup (s.mem.read s.pc) = none) :
    stepAccesses s = [.read s.pc] := by
  simp [stepAccesses, hr, hl]

theorem stepAccesses_of_implemented {d : Descriptor} (hr : s.runState = .running)
    (hl : lookup (s.mem.read s.pc) = some d) :
    stepAccesses s =
      .read s.pc :: (addressReads d.mode s.incPc ++ dataAccesses d.family (resolve d.mode s.incPc) s.incPc) := by
  simp [stepAccesses, hr, hl]

theorem stepAccesses_of_decoded {i : Instr} (hr : s.runState = .running) (hdec : decode (fetchBytes s) = .ok (i, [])) :
    stepAccesses s =
      .read s.pc :: (addressReads i.mode s.incPc ++ dataAccesses i.family (instrAddress i s.incPc) s.incPc) := by
  rw [instrAddress_of_decode_fetch hdec]
  exact stepAccesses_of_implemented hr (lookup_of_decode_fetch hdec)

/-- Settles O39: of a step's accesses only the data access of an instruction writes, and it is the effect on the store. -/
theorem storeAfterStepIsItsListedWrites : Obligations.StoreAfterStepIsItsListedWrites := by
  intro s t h
  rcases step_next h with ⟨hr, rfl⟩ | ⟨hr, hl, rfl⟩ | ⟨i, hr, hdec, rfl⟩
  · rw [stepAccesses_of_halted hr]
    rfl
  · rw [stepAccesses_of_unimplemented hr hl]
    rfl
  · rw [stepAccesses_of_decoded hr hdec, List.foldl_cons, List.foldl_append, foldl_apply_addressReads]
    exact effect_mem_eq_foldl i s.incPc

end Sys2Proof.Machine
end

section
/-! PROOFS. A step reads no byte but those it lists (`20_memory.md` R50, R51, R53): two cores that differ at most in their
stores are one core with two stores, and where these agree on the bytes listed as read, both cores list the same accesses,
fetch the same instruction, and have the same effect on everything but the store. -/

namespace Sys2Proof.Machine

open Sys2Proof.Claims

/-- The second store reads as the first at every address listed as read. -/
def AgreeOnReads (accesses : List Access) (m m' : Memory) : Prop := ∀ b, Access.read b ∈ accesses → m'.read b = m.read b

variable {m m' : Memory}

@[simp] theorem agreeOnReads_read_cons {b : Word} {l : List Access} :
    AgreeOnReads (.read b :: l) m m' ↔ m'.read b = m.read b ∧ AgreeOnReads l m m' := by
  simp [AgreeOnReads]

@[simp] theorem agreeOnReads_append {l l' : List Access} :
    AgreeOnReads (l ++ l') m m' ↔ AgreeOnReads l m m' ∧ AgreeOnReads l' m m' := by
  simp [AgreeOnReads, or_imp, forall_and]

theorem sameButStore_setMem (s : State) (m : Memory) : SameButStore s (s.setMem m) := ⟨rfl, rfl, rfl, rfl, rfl, rfl, rfl⟩

theorem eq_setMem_of_sameButStore {s s' : State} (h : SameButStore s s') : s' = s.setMem s'.mem :=
  State.ext_fields h.a h.x h.y h.p h.pc h.runState h.faultCause rfl

variable {s : State}

/-! ### The same accesses -/

/-- The pointer bytes a mode reads are at an address it has read itself. -/
theorem addressReads_setMem {mode : Mode} (h : AgreeOnReads (addressReads mode s) s.mem m) :
    addressReads mode (s.setMem m) = addressReads mode s := by
  cases mode
  case indirectX | indirectY =>
    simp only [addressReads, agreeOnReads_read_cons] at h
    simp [addressReads, h]
  all_goals rfl

/-- An effective address is formed from the bytes its mode reads (R100). -/
theorem resolve_setMem {mode : Mode} (h : AgreeOnReads (addressReads mode s) s.mem m) :
    resolve mode (s.setMem m) = resolve mode s := by
  cases mode
  case immediate | implied => rfl
  all_goals
    simp only [addressReads, agreeOnReads_read_cons] at h
    simp [resolve, eaOf, eaZeroPageX, eaAbsoluteX, eaAbsoluteY, eaIndirectX, eaIndirectY, eaRelative, zeroPageWord,
      Memory.read16, h]

/-- Of the data accesses ASL's write alone depends on the store, through the byte it has read. -/
theorem dataAccesses_setMem {family : Family} {ea : Option Word}
    (h : AgreeOnReads (dataAccesses family ea s) s.mem m) :
    dataAccesses family ea (s.setMem m) = dataAccesses family ea s := by
  cases ea with
  | none => rfl
  | some addr =>
    cases family
    case asl =>
      simp only [dataAccesses, agreeOnReads_read_cons] at h
      simp [dataAccesses, h]
    all_goals rfl

@[simp] theorem State.incPc_setMem (s : State) (m : Memory) : (s.setMem m).incPc = s.incPc.setMem m := rfl

/-- The opcode fetch is a read, so both stores give the same entry of the table. -/
theorem lookup_setMem {entry : Option Descriptor} {l : List Access} (h : AgreeOnReads (.read s.pc :: l) s.mem m)
    (hl : lookup (s.mem.read s.pc) = entry) : lookup ((s.setMem m).mem.read (s.setMem m).pc) = entry := by
  rw [agreeOnReads_read_cons] at h
  rw [State.setMem_mem, State.setMem_pc, h.1, hl]

theorem stepAccesses_setMem (h : AgreeOnReads (stepAccesses s) s.mem m) :
    stepAccesses (s.setMem m) = stepAccesses s := by
  cases hr : s.runState with
  | halted => rw [stepAccesses_of_halted hr, stepAccesses_of_halted (s := s.setMem m) hr]
  | running =>
    cases hl : lookup (s.mem.read s.pc) with
    | none =>
      rw [stepAccesses_of_unimplemented hr hl] at h ⊢
      exact stepAccesses_of_unimplemented (s := s.setMem m) hr (lookup_setMem h hl)
    | some d =>
      rw [stepAccesses_of_implemented hr hl] at h ⊢
      rw [stepAccesses_of_implemented (s := s.setMem m) hr (lookup_setMem h hl)]
      simp only [agreeOnReads_read_cons, agreeOnReads_append] at h
      obtain ⟨-, haddr, hdata⟩ := h
      rw [State.incPc_setMem, addressReads_setMem haddr, resolve_setMem haddr, dataAccesses_setMem hdata, State.setMem_pc]

/-! ### The same instruction -/

/-- Immediate is a mode of LDA, ADC and AND alone, whose data access reads the operand byte (R50, R101, R111). -/
theorem dataAccesses_immediate {family : Family} (h : family.hasMode .immediate = true) (ea : Word) (s : State) :
    dataAccesses family (some ea) s = [.read ea] := by
  cases family
  case lda | adc | and => rfl
  all_goals cases h

theorem resolve_immediate (s : State) : resolve .immediate s = some s.pc := rfl

/-- Every operand byte is read, as a part of the address or, in Immediate, as the data. -/
theorem readBytes_of_agreeOnReads {family : Family} {mode : Mode} (hmode : family.hasMode mode = true)
    (h : AgreeOnReads (addressReads mode s ++ dataAccesses family (resolve mode s) s) s.mem m) :
    m.readBytes s.pc mode.len = s.mem.readBytes s.pc mode.len := by
  cases mode
  case implied => rfl
  case immediate =>
    rw [resolve_immediate, dataAccesses_immediate hmode] at h
    simp only [addressReads, List.nil_append, agreeOnReads_read_cons] at h
    simp [Mode.len, h]
  all_goals
    simp only [addressReads, List.cons_append, agreeOnReads_read_cons] at h
    simp [Mode.len, h]

variable {i : Instr}

theorem fetchBytes_setMem (hr : s.runState = .running) (hl : lookup (s.mem.read s.pc) = some i.descriptor)
    (h : AgreeOnReads (stepAccesses s) s.mem m) : fetchBytes (s.setMem m) = fetchBytes s := by
  rw [stepAccesses_of_implemented hr hl, agreeOnReads_read_cons] at h
  obtain ⟨hop, hrest⟩ := h
  have hoperands : m.readBytes (s.pc + 1#16) i.mode.len = s.mem.readBytes (s.pc + 1#16) i.mode.len :=
    readBytes_of_agreeOnReads (s := s.incPc) (hasMode_family_mode i) hrest
  have hlen : operandLength (s.mem.read s.pc) = i.mode.len := operandLength_lookup hl
  simp [fetchBytes, hop, hlen, hoperands]

/-! ### The same effect -/

/-- The instructions that take a data byte from the store list the read of it. -/
theorem read_mem_dataAccesses {ea : Word} (hf : i.family ∈ [Family.asl, .lda, .adc, .and]) :
    .read ea ∈ dataAccesses i.family (some ea) s := by
  cases hfam : i.family
  case asl | lda | adc | and => exact List.mem_cons_self
  all_goals simp [hfam] at hf

/-- The byte at the effective address, of an instruction that reads there. -/
theorem read_dataAddress_of_agreeOnReads (hf : i.family ∈ [Family.asl, .lda, .adc, .and]) (himp : i.mode ≠ .implied)
    (h : AgreeOnReads (dataAccesses i.family (instrAddress i s) s) s.mem m) :
    m.read (dataAddress i s) = s.mem.read (dataAddress i s) := by
  rw [instrAddress_eq_some s himp] at h
  exact h _ (read_mem_dataAccesses hf)

theorem dataByte_setMem (hf : i.family ∈ [Family.lda, .adc, .and])
    (haddr : dataAddress i (s.setMem m) = dataAddress i s)
    (h : AgreeOnReads (dataAccesses i.family (instrAddress i s) s) s.mem m) :
    dataByte i (s.setMem m) = dataByte i s := by
  have himp : i.mode ≠ .implied := mode_ne_implied_of_family (List.mem_cons_of_mem _ hf)
  unfold dataByte
  split
  · rfl
  · rw [haddr]
    exact read_dataAddress_of_agreeOnReads (List.mem_cons_of_mem _ hf) himp h

/-- Outside the store an effect depends on the store through the bytes the instruction reads. -/
theorem effect_sameButStore (haddr : dataAddress i (s.setMem m) = dataAddress i s)
    (h : AgreeOnReads (dataAccesses i.family (instrAddress i s) s) s.mem m) :
    SameButStore (effect i s) (effect i (s.setMem m)) := by
  unfold effect
  rw [haddr]
  cases hf : i.family
  case lda | adc | and =>
    rw [dataByte_setMem (by simp [hf]) haddr h]
    exact ⟨rfl, rfl, rfl, rfl, rfl, rfl, rfl⟩
  case asl =>
    dsimp only
    split
    · exact ⟨rfl, rfl, rfl, rfl, rfl, rfl, rfl⟩
    · next hacc =>
      have hread := read_dataAddress_of_agreeOnReads (by simp [hf]) (mode_ne_implied_of_asl hf hacc) h
      have hp : (aslAt (dataAddress i s) (s.setMem m)).p = (aslAt (dataAddress i s) s).p := by simp [aslAt, hread]
      exact ⟨rfl, rfl, rfl, hp, rfl, rfl, rfl⟩
  all_goals exact ⟨rfl, rfl, rfl, rfl, rfl, rfl, rfl⟩

theorem addLen_sameButStore (mode : Mode) {s s' : State} (h : SameButStore s s') :
    SameButStore (s.addLen mode) (s'.addLen mode) :=
  { h with pc := congrArg (· + BitVec.ofNat 16 mode.len) h.pc }

/-- Settles O40: with only the store different both steps idle, both take the exception, or both run the same instruction. -/
theorem stepDependsOnlyOnListedReads : Obligations.StepDependsOnlyOnListedReads := by
  intro s s' t t' hsame hreads ht ht'
  obtain ⟨m, rfl⟩ : ∃ m, s' = s.setMem m := ⟨s'.mem, eq_setMem_of_sameButStore hsame⟩
  have hagree : AgreeOnReads (stepAccesses s) s.mem m := hreads
  refine ⟨stepAccesses_setMem hagree, ?_⟩
  rcases step_next ht with ⟨hr, rfl⟩ | ⟨hr, hl, rfl⟩ | ⟨i, hr, hdec, rfl⟩
  · rw [step_of_halted (s := t.setMem m) hr] at ht'
    cases ht'
    exact sameButStore_setMem t m
  · rw [stepAccesses_of_unimplemented hr hl] at hagree
    rw [step_of_unimplemented (s := s.setMem m) hr (lookup_setMem hagree hl)] at ht'
    cases ht'
    exact sameButStore_setMem (takeUnimplementedOpcode s.incPc) m
  · have hfetch := fetchBytes_setMem hr (lookup_of_decode_fetch hdec) hagree
    have hdec' : decode (fetchBytes (s.setMem m)) = .ok (i, []) := hfetch ▸ hdec
    rw [step_of_decoded (s := s.setMem m) hr hdec'] at ht'
    cases ht'
    rw [stepAccesses_of_decoded hr hdec] at hagree
    simp only [agreeOnReads_read_cons, agreeOnReads_append] at hagree
    obtain ⟨-, haddr, hdata⟩ := hagree
    have hea : instrAddress i (s.setMem m).incPc = instrAddress i s.incPc := by
      rw [instrAddress_of_decode_fetch hdec, instrAddress_of_decode_fetch hdec', State.incPc_setMem, resolve_setMem haddr]
    exact addLen_sameButStore i.mode (effect_sameButStore (s := s.incPc) (congrArg (·.getD 0#16) hea) hdata)

end Sys2Proof.Machine
end

section
/-! PROOFS. The table of `20_memory.md` R50, line by line: the entry of each opcode byte gives the accesses, and the formulas
of `41_addressing_modes.md` R101 to R108 the addresses as numbers. -/

namespace Sys2Proof.Machine

open Sys2Proof.Claims

/-! ### Addresses as numbers -/

theorem zext16_eq_pageZero (v : Byte) : zext16 v = pageZero v.toNat := by
  apply BitVec.eq_of_toNat_eq
  have := v.isLt
  rw [zext16_toNat, pageZero, BitVec.toNat_ofNat]
  omega

theorem pageZero_mod (n : Nat) : pageZero (n % 256) = pageZero n := by
  simp [pageZero]

theorem pageZero_mod_add_one (n : Nat) : pageZero (n % 256 + 1) = pageZero (n + 1) := by
  simp [pageZero]

/-- An 8-bit sum stays in page 0 (R103, R107, R108). -/
theorem zext16_add_eq_pageZero (v w : Byte) : zext16 (v + w) = pageZero (v.toNat + w.toNat) := by
  rw [zext16_eq_pageZero, BitVec.toNat_add]
  exact pageZero_mod _

/-- The second byte of a pointer is at the next address of page 0. -/
theorem zext16_add_one_eq_pageZero (v : Byte) : zext16 (v + 1#8) = pageZero (v.toNat + 1) :=
  zext16_add_eq_pageZero v 1#8

theorem wordOf_eq_absolute (hh ll : Byte) : wordOf hh ll = absolute ll hh 0 := by
  apply BitVec.eq_of_toNat_eq
  have := (wordOf hh ll).isLt
  simp [absolute]
  omega

/-- An index is added to the 16-bit base (R105, R106). -/
theorem wordOf_add_zext16_eq_absolute (hh ll index : Byte) : wordOf hh ll + zext16 index = absolute ll hh index.toNat := by
  apply BitVec.eq_of_toNat_eq
  simp [absolute]

/-- The word at a zero-page pointer as a number (R107, R108). -/
theorem zeroPageWord_toNat (m : Memory) (ptr : Byte) : (zeroPageWord m ptr).toNat = pointerAt m ptr.toNat := by
  rw [zeroPageWord, read16_toNat, zext16_eq_pageZero, zext16_add_one_eq_pageZero, pointerAt]

/-- A pointer is taken modulo 256. -/
theorem pointerAt_mod (m : Memory) (n : Nat) : pointerAt m (n % 256) = pointerAt m n := by
  rw [pointerAt, pointerAt, pageZero_mod, pageZero_mod_add_one]

theorem zeroPageWord_eq_ofNat (m : Memory) (ptr : Byte) : zeroPageWord m ptr = BitVec.ofNat 16 (pointerAt m ptr.toNat) := by
  rw [← zeroPageWord_toNat, BitVec.ofNat_toNat, BitVec.setWidth_eq]

theorem eaIndirectX_eq_indirectX (nn : Byte) (s : State) : eaIndirectX nn s = indirectX nn s := by
  rw [eaIndirectX, zeroPageWord_eq_ofNat, BitVec.toNat_add, pointerAt_mod, indirectX]

theorem eaIndirectY_eq_indirectY (nn : Byte) (s : State) : eaIndirectY nn s = indirectY nn s := by
  apply BitVec.eq_of_toNat_eq
  simp [eaIndirectY, indirectY, zeroPageWord_toNat]

theorem resolve_zeroPage (s : State) : resolve .zeroPage s = some (pageZero (s.mem.read s.pc).toNat) :=
  congrArg some (zext16_eq_pageZero _)

theorem resolve_zeroPageX (s : State) :
    resolve .zeroPageX s = some (pageZero ((s.mem.read s.pc).toNat + s.x.toNat)) :=
  congrArg some (zext16_add_eq_pageZero _ s.x)

theorem resolve_absolute (s : State) :
    resolve .absolute s = some (absolute (s.mem.read s.pc) (s.mem.read (s.pc + 1#16)) 0) :=
  congrArg some (wordOf_eq_absolute _ _)

theorem resolve_absoluteX (s : State) :
    resolve .absoluteX s = some (absolute (s.mem.read s.pc) (s.mem.read (s.pc + 1#16)) s.x.toNat) :=
  congrArg some (wordOf_add_zext16_eq_absolute _ _ s.x)

theorem resolve_absoluteY (s : State) :
    resolve .absoluteY s = some (absolute (s.mem.read s.pc) (s.mem.read (s.pc + 1#16)) s.y.toNat) :=
  congrArg some (wordOf_add_zext16_eq_absolute _ _ s.y)

theorem resolve_indirectX (s : State) : resolve .indirectX s = some (indirectX (s.mem.read s.pc) s) :=
  congrArg some (eaIndirectX_eq_indirectX _ s)

theorem resolve_indirectY (s : State) : resolve .indirectY s = some (indirectY (s.mem.read s.pc) s) :=
  congrArg some (eaIndirectY_eq_indirectY _ s)

/-- The byte shifted left, as a number (`44_shift.md` R170). -/
theorem shiftLeft_one_eq_ofNat (v : Byte) : v <<< 1 = BitVec.ofNat 8 (2 * v.toNat % 256) := by
  apply BitVec.eq_of_toNat_eq
  simp [Nat.shiftLeft_eq, Nat.mul_comm]

/-! ### The lines -/

theorem State.incPc_pc_add_one (s : State) : s.incPc.pc + 1#16 = s.pc + 2#16 := BitVec.add_assoc s.pc 1#16 1#16

variable {s : State}

/-- The one-byte instructions and the halt fetch their opcode and nothing else. -/
theorem stepAccesses_of_implied (hr : s.runState = .running)
    (hmode : (lookup (s.mem.read s.pc)).map (·.mode) = some .implied) : stepAccesses s = [.read s.pc] := by
  obtain ⟨d, hl, hd⟩ := Option.map_eq_some_iff.mp hmode
  rw [stepAccesses_of_implemented hr hl, hd]
  rfl

/-- An Immediate instruction's one operand byte is its data (R101). -/
theorem stepAccesses_of_immediate (hr : s.runState = .running)
    (hmode : (lookup (s.mem.read s.pc)).map (·.mode) = some .immediate) :
    stepAccesses s = [.read s.pc, .read (s.pc + 1#16)] := by
  obtain ⟨d, hl, hd⟩ := Option.map_eq_some_iff.mp hmode
  obtain ⟨hpair, -⟩ := (Bool.and_eq_true _ _).mp (lookup_wellFormed hl)
  rw [hd] at hpair
  rw [stepAccesses_of_implemented hr hl, hd, resolve_immediate, dataAccesses_immediate hpair]
  rfl

/-- A line of the table from the entries of its opcode bytes, the address reads of its mode, and the address. -/
theorem accessLine_of_lookup {loads shifts : List Byte} {store : Byte} {before : List Access} {ea : Word} (mode : Mode)
    (hr : s.runState = .running)
    (hloads : ∀ op ∈ loads, ∃ family ∈ [Family.lda, .adc, .and], lookup op = some ⟨family, mode, false⟩)
    (hstore : lookup store = some ⟨.sta, mode, false⟩) (hshifts : ∀ op ∈ shifts, lookup op = some ⟨.asl, mode, false⟩)
    (hbefore : addressReads mode s.incPc = before) (hea : resolve mode s.incPc = some ea) :
    AccessLine s loads store shifts before ea := by
  subst hbefore
  refine ⟨fun hop => ?_, fun hop => ?_, fun hop => ?_⟩
  · obtain ⟨family, hfamily, hl⟩ := hloads _ hop
    rw [stepAccesses_of_implemented hr hl, hea]
    fin_cases hfamily <;> rfl
  · rw [stepAccesses_of_implemented hr (hop ▸ hstore), hea]
    rfl
  · rw [stepAccesses_of_implemented hr (hshifts _ hop), hea, ← shiftLeft_one_eq_ofNat]
    rfl

/-- The address reads of the modes with a word operand. -/
theorem reads_word_eq (s : State) : [Access.read s.incPc.pc, .read (s.incPc.pc + 1#16)] =
    [.read (s.pc + 1#16), .read (s.pc + 2#16)] := by
  rw [State.incPc_pc_add_one]
  rfl

/-- Settles O38: the entries of the opcode bytes give each line its mode, and the mode its reads and its address. -/
theorem accessesFollowTheTable : Obligations.AccessesFollowTheTable := by
  intro s hr
  have himplied : ∀ op ∈ 0x00#8 :: oneByteOpcodes, (lookup op).map (·.mode) = some .implied := by decide
  have himmediate : ∀ op ∈ [0xA9#8, 0x69#8, 0x29#8], (lookup op).map (·.mode) = some .immediate := by decide
  have hword := reads_word_eq s
  refine ⟨fun hop => stepAccesses_of_unimplemented hr (lookup_eq_none_iff.mpr hop),
    fun hop => stepAccesses_of_implied hr (himplied _ hop), fun hop => stepAccesses_of_immediate hr (himmediate _ hop),
    accessLine_of_lookup .zeroPage hr (by decide) (by decide) (by decide) rfl (resolve_zeroPage s.incPc),
    accessLine_of_lookup .zeroPageX hr (by decide) (by decide) (by decide) rfl (resolve_zeroPageX s.incPc),
    accessLine_of_lookup .absolute hr (by decide) (by decide) (by decide) hword ?_,
    accessLine_of_lookup .absoluteX hr (by decide) (by decide) (by decide) hword ?_,
    accessLine_of_lookup .absoluteY hr (by decide) (by decide) (by decide) hword ?_,
    accessLine_of_lookup .indirectX hr (by decide) (by decide) (by decide) ?_ (resolve_indirectX s.incPc),
    accessLine_of_lookup .indirectY hr (by decide) (by decide) (by decide) ?_ (resolve_indirectY s.incPc)⟩
  · rw [resolve_absolute, State.incPc_pc_add_one]
    rfl
  · rw [resolve_absoluteX, State.incPc_pc_add_one]
    rfl
  · rw [resolve_absoluteY, State.incPc_pc_add_one]
    rfl
  · simp [addressReads, zext16_eq_pageZero, pageZero_mod]
  · simp [addressReads, zext16_eq_pageZero, pageZero_mod]

end Sys2Proof.Machine
end

section
/-! PROOFS. The decoder and the encoder (`30_encoding.md` R60 to R71): decoding an encoding gives the instruction back, with
`eq_encode_append_of_decode` for the other direction; and a byte is accepted exactly when it is an opcode of the table. -/

namespace Sys2Proof.Machine

open Sys2Proof.Claims

/-- The opcode byte of an encoding gives the instruction's own entry, with as many operand bytes as follow it. A word operand
is put together again from its two bytes (R63). -/
theorem decode_encode_append (i : Instr) (rest : List Byte) : decode (encode i ++ rest) = .ok (i, rest) := by
  cases i with
  | ldaAbs w | ldaAbsX w | ldaAbsY w | staAbs w | staAbsX w | staAbsY w | adcAbs w | adcAbsX w | adcAbsY w
  | andAbs w | andAbsX w | andAbsY w | aslAbs w | aslAbsX w =>
    conv_rhs => rw [← wordOf_bytes w]
    rfl
  | _ => rfl

/-- Settles O1, constructor by constructor. -/
theorem decodeOfEncodeIsTheInstruction : Obligations.DecodeOfEncodeIsTheInstruction :=
  decode_encode_append

/-- Settles O2: the entry of the opcode byte and the operand bytes split off are what the instruction is encoded in. -/
theorem decodedBytesAreTheEncoding : Obligations.DecodedBytesAreTheEncoding :=
  fun _ _ _ => eq_encode_append_of_decode

/-- An opcode byte outside the table is refused by name, whatever follows it (R68). -/
theorem decode_of_unimplemented {op : Byte} (bytes : List Byte) (h : op ∉ implementedOpcodes) :
    decode (op :: bytes) = .error (.unimplementedOpcode op) := by
  simp [decode, lookup_eq_none_iff.mpr h]

/-- No mode has more than two operand bytes (R62). -/
theorem takeOperands_two (mode : Mode) (b0 b1 : Byte) (rest : List Byte) :
    ∃ c0 c1 after, takeOperands mode.len (b0 :: b1 :: rest) = some (c0, c1, after) := by
  cases mode <;> exact ⟨_, _, _, rfl⟩

/-- An opcode byte of the table with two bytes after it is an instruction. -/
theorem decode_of_implemented {op : Byte} (b0 b1 : Byte) (rest : List Byte) (h : op ∈ implementedOpcodes) :
    ∃ i after, decode (op :: b0 :: b1 :: rest) = .ok (i, after) := by
  have hne : lookup op ≠ none := fun hnone => lookup_eq_none_iff.mp hnone h
  obtain ⟨d, hl⟩ := Option.ne_none_iff_exists'.mp hne
  obtain ⟨c0, c1, after, hops⟩ := takeOperands_two d.mode b0 b1 rest
  obtain ⟨i, hi, -⟩ := instrOf_lookup hl c0 c1
  exact ⟨i, after, by simp [decode, hl, hops, hi]⟩

/-- Settles O4: the bytes with an entry are the 41, and every entry has an instruction. -/
theorem decoderAcceptsExactlyTheTable : Obligations.DecoderAcceptsExactlyTheTable :=
  fun _ b0 b1 rest => ⟨decode_of_implemented b0 b1 rest, decode_of_unimplemented (b0 :: b1 :: rest)⟩

/-- Settles O3: the 41 rows one by one, and no entry for any other byte. -/
theorem decoderOutputsAreTheOpcodeMap : Obligations.DecoderOutputsAreTheOpcodeMap := by
  refine ⟨by decide, fun op hop => ?_⟩
  rw [decoderOutputs, lookup_eq_none_iff.mpr hop, Option.map_none]

/-- Settles O5: each word is the encoding of the instruction it stands for, and 0xEA is not in the table. -/
theorem writtenOutWordsDecode : Obligations.WrittenOutWordsDecode :=
  have hword (i : Instr) : decode (encode i ++ []) = .ok (i, []) := decode_encode_append i []
  ⟨hword (.ldaImm 0x05), hword (.ldaAbs 0x1234), hword (.ldaIndY 0x40), hword (.staAbsX 0x01FF), hword (.staIndX 0x3F),
    hword (.adcAbsY 0x2000), hword (.andZpx 0x10), hword .aslAcc, hword (.aslAbsX 0x0300), hword .tax, hword .inx,
    hword .sei, hword .sed, hword .brk, decode_of_unimplemented [] (by decide)⟩

end Sys2Proof.Machine
end

section
/-! PROOFS. An instruction whose encoding stands at PC is the one fetched and run (`30_encoding.md` R60,
`40_fetch_decode_execute.md` R80, R82), and `withFetchWord` puts a table word's bytes there. -/

namespace Sys2Proof.Machine

open Sys2Proof.Claims

/-- The first byte of an encoding is the opcode of the instruction's own entry (R66). -/
theorem encode_eq_opcode_cons (i : Instr) : ∃ op operands, encode i = op :: operands ∧ lookup op = some i.descriptor := by
  cases i <;> exact ⟨_, _, rfl, rfl⟩

variable {s : State} {i : Instr}

/-- The fetch takes the opcode byte and as many operand bytes as it has, which is the whole encoding (R60, R62). -/
theorem fetchBytes_of_bytesAtPc (h : BytesAtPc s (encode i)) : fetchBytes s = encode i := by
  obtain ⟨op, operands, henc, hl⟩ := encode_eq_opcode_cons i
  rw [BytesAtPc, encode_length, Memory.readBytes, henc] at h
  obtain ⟨hop, hoperands⟩ := List.cons_eq_cons.mp h
  have hlen : operandLength op = i.mode.len := operandLength_lookup hl
  rw [fetchBytes, hop, hlen, hoperands, henc]

theorem step_of_bytesAtPc (hr : s.runState = .running) (h : BytesAtPc s (encode i)) : step s = exec i s.incPc := by
  have hdec : decode (fetchBytes s) = .ok (i, []) := by
    rw [fetchBytes_of_bytesAtPc h, ← List.append_nil (encode i), decode_encode_append]
  rw [step_of_decoded hr hdec, exec_eq]

/-- Settles O7: the bytes fetched are the encoding, which decodes to the instruction. -/
theorem stepRunsTheInstructionInMemory : Obligations.StepRunsTheInstructionInMemory :=
  fun _ _ => step_of_bytesAtPc

/-! ### Bytes written and read again -/

theorem Memory.readBytes_getElem (m : Memory) (addr : Word) {n k : Nat} (hk : k < (m.readBytes addr n).length) :
    (m.readBytes addr n)[k] = m.read (addr + BitVec.ofNat 16 k) := by
  induction n generalizing addr k with
  | zero => simp at hk
  | succ n ih =>
    cases k with
    | zero => simp [Memory.readBytes]
    | succ k =>
      have haddr : addr + 1#16 + BitVec.ofNat 16 k = addr + BitVec.ofNat 16 (k + 1) := by
        rw [BitVec.ofNat_add, BitVec.add_assoc, BitVec.add_comm 1#16]
      simp [Memory.readBytes, ih, haddr]

/-- Bytes just written are read again, up to any length, when the last does not come round to the first. -/
theorem Memory.readBytes_writeBytes (m : Memory) (addr : Word) {bytes : List Byte} {n : Nat} (hn : n ≤ bytes.length)
    (hlen : bytes.length ≤ 65536) : (m.writeBytes addr bytes).readBytes addr n = bytes.take n := by
  refine List.ext_getElem (by simp [hn]) fun k hk _ => ?_
  have hkn : k < n := by simpa using hk
  have hoffset : (addr + BitVec.ofNat 16 k - addr).toNat = k := by
    rw [BitVec.add_comm, BitVec.add_sub_cancel, BitVec.toNat_ofNat]
    omega
  have hkbytes : k < bytes.length := by omega
  rw [Memory.readBytes_getElem, Memory.read_writeBytes _ _ _ _ hlen, hoffset, if_pos hkbytes, List.getElem_take,
    List.getD_eq_getElem _ _ hkbytes]

/-- A table word that starts with an encoding puts that encoding at PC. -/
theorem bytesAtPc_withFetchWord (s : State) {nbits w : Nat} {bytes rest : List Byte}
    (h : tableWordBytes nbits w = bytes ++ rest) : BytesAtPc (s.withFetchWord nbits w) bytes := by
  have hle : bytes.length ≤ (tableWordBytes nbits w).length := by simp [h]
  have hread := Memory.readBytes_writeBytes s.mem s.pc hle (by simp [tableWordBytes])
  rwa [h, List.take_left, ← h] at hread

/-- Settles O56: the word's bytes decode to the instruction, and they stand at PC of a Running core. -/
theorem fetchWordRunsItsInstruction : Obligations.FetchWordRunsItsInstruction := by
  intro s i nbits w rest h
  constructor
  · rw [decodeTableWord, h, decode_encode_append]
  · exact step_of_bytesAtPc rfl (bytesAtPc_withFetchWord s h)

end Sys2Proof.Machine
end

section
/-! PROOFS. The step by the opcode byte at PC (`40_fetch_decode_execute.md` R80 to R88): the halt opcode, a byte outside the
table, and every other, which ends Running with PC past the instruction as it was fetched. -/

namespace Sys2Proof.Machine

open Sys2Proof.Claims

/-- Settles O6: `exec` is the effect and then PC past the operand bytes, as the step is. -/
theorem stepRunsTheDecodedInstruction : Obligations.StepRunsTheDecodedInstruction := by
  intro s i rest hr hdec
  rw [step_of_decoded hr hdec]
  exact (exec_eq i s.incPc).symm

/-- Settles O9: a Halted core neither moves nor drives its memory interface. -/
theorem haltedStepChangesNothing : Obligations.HaltedStepChangesNothing :=
  fun _ hr => ⟨step_of_halted hr, stepAccesses_of_halted hr⟩

/-- BRK is the one instruction of its family (`47_halt.md` R190). -/
theorem eq_brk_of_family {i : Instr} (hf : i.family = .brk) : i = .brk := by
  cases i with
  | brk => rfl
  | _ => cases hf

/-- Settles O36: an effect keeps PC and the latch, only BRK's writes the run state, and the encoding is the opcode byte and the
operand bytes that PC moves past. -/
theorem noControlTransfer : Obligations.NoControlTransfer := by
  intro i s t h
  rw [exec_next h, encode_length, Nat.add_sub_cancel]
  refine ⟨?_, effect_faultCause i s, fun hbrk => ?_⟩
  · rw [State.addLen_pc, effect_pc]
  · rw [State.addLen_runState, effect_runState, if_neg (mt eq_brk_of_family hbrk)]

/-- The halt opcode is the only byte with an entry of BRK's family (`30_encoding.md` R66). -/
theorem eq_zero_of_lookup_brk {op : Byte} {d : Descriptor} (hl : lookup op = some d) (hf : d.family = .brk) :
    op = 0x00#8 :=
  have hrows : ∀ row ∈ opcodeTable, row.2.family = .brk → row.1 = 0x00#8 := by decide
  hrows (op, d) (lookup_mem hl) hf

variable {s : State}

/-- The halt opcode at PC: the core halts with PC past it (R84). -/
theorem step_of_haltOpcode (hr : s.runState = .running) (hop : s.mem.read s.pc = 0x00#8) :
    step s = .next (s.incPc.setRunState .halted) :=
  have hbytes : BytesAtPc s (encode .brk) := congrArg ([·]) hop
  step_of_bytesAtPc hr hbytes

/-- Any other opcode of the table at PC: PC moves past the opcode and the operand bytes it had when it was fetched, and the core
runs on (R86). -/
theorem step_of_ordinaryOpcode (hr : s.runState = .running) (hop : s.mem.read s.pc ∈ implementedOpcodes)
    (hne : s.mem.read s.pc ≠ 0x00#8) :
    Answers (step s) fun t =>
      t.pc = s.pc + 1#16 + BitVec.ofNat 16 (operandLength (s.mem.read s.pc)) ∧ KeepsControl s t := by
  have hsome : lookup (s.mem.read s.pc) ≠ none := fun hnone => lookup_eq_none_iff.mp hnone hop
  obtain ⟨d, hl⟩ := Option.ne_none_iff_exists'.mp hsome
  obtain ⟨i, hdec, rfl⟩ := decode_fetch_implemented s hl
  have hbrk : i.family ≠ .brk := mt (eq_zero_of_lookup_brk hl) hne
  refine ⟨_, step_of_decoded hr hdec, ?_, ?_, ?_⟩
  · rw [State.addLen_pc, effect_pc, operandLength_lookup hl]
    rfl
  · rw [State.addLen_runState, effect_runState, if_neg hbrk, State.incPc_runState]
  · rw [State.addLen_faultCause, effect_faultCause, State.incPc_faultCause]

/-- A class of opcodes with equally many operand bytes moves PC by one more than these. -/
theorem step_of_opcodeClass {ops : List Byte} {n : Nat} (hr : s.runState = .running)
    (hops : ∀ op ∈ ops, op ∈ implementedOpcodes ∧ op ≠ 0x00#8 ∧ operandLength op = n) (hop : s.mem.read s.pc ∈ ops) :
    Answers (step s) fun t => t.pc = s.pc + BitVec.ofNat 16 (1 + n) ∧ KeepsControl s t := by
  obtain ⟨himpl, hne, hlen⟩ := hops _ hop
  obtain ⟨t, hstep, hpc, hcontrol⟩ := step_of_ordinaryOpcode hr himpl hne
  refine ⟨t, hstep, ?_, hcontrol⟩
  rw [hpc, hlen, BitVec.add_assoc, BitVec.ofNat_add]

/-- Settles O11: each of the three lists is a class of opcodes with 0, 1 or 2 operand bytes. -/
theorem pcAfterAnOrdinaryStep : Obligations.PcAfterAnOrdinaryStep :=
  fun _ hr =>
    ⟨step_of_opcodeClass (n := 0) hr (by decide), step_of_opcodeClass (n := 1) hr (by decide),
      step_of_opcodeClass (n := 2) hr (by decide)⟩

/-- Settles O12: a row for each kind of opcode byte, and the Halted row. -/
theorem runStateMachine : Obligations.RunStateMachine := by
  refine ⟨rfl, resetCore_runState, fun s hr hop => ?_, fun s hr hop => ?_, fun s hr hop hne => ?_, fun s hr => ?_⟩
  · exact ⟨_, step_of_haltOpcode hr hop, rfl, rfl⟩
  · exact ⟨_, step_of_unimplemented hr (lookup_eq_none_iff.mpr hop), rfl, rfl⟩
  · obtain ⟨t, hstep, -, hrun, -⟩ := step_of_ordinaryOpcode hr hop hne
    exact ⟨t, hstep, hrun.trans hr⟩
  · exact ⟨s, step_of_halted hr, rfl⟩

/-- Settles O53: a step that halts keeps the store and leaves PC one past the opcode, which is the halt opcode or outside the
table, since after any other the core is Running. -/
theorem theLastOpcodeTellsHowTheRunEnded : Obligations.TheLastOpcodeTellsHowTheRunEnded := by
  intro s t hr hcause hstep hhalted
  have hpc : s.incPc.pc - 1#16 = s.pc := BitVec.add_sub_cancel s.pc 1#16
  by_cases himpl : s.mem.read s.pc ∈ implementedOpcodes
  · by_cases hzero : s.mem.read s.pc = 0x00#8
    · rw [step_of_haltOpcode hr hzero] at hstep
      cases hstep
      exact .inl ⟨⟨rfl, hcause⟩, (congrArg s.mem.read hpc).trans hzero⟩
    · obtain ⟨t', hstep', -, hrun, -⟩ := step_of_ordinaryOpcode hr himpl hzero
      cases hstep.symm.trans hstep'
      rw [hrun, hr] at hhalted
      cases hhalted
  · rw [step_of_unimplemented hr (lookup_eq_none_iff.mpr himpl)] at hstep
    cases hstep
    refine .inr ⟨⟨rfl, rfl⟩, ?_⟩
    rwa [takeUnimplementedOpcode_pc, hpc]

end Sys2Proof.Machine
end

section
/-! PROOFS. `run` is the iterated step (`40_fetch_decode_execute.md` R89). A Halted core's step answers the same state, so that
`run` may ask it for more steps or stop there, with one result. -/

namespace Sys2Proof.Machine

open Sys2Proof.Claims

theorem step_answers (s : State) : ∃ t, step s = .next t := by
  rcases step_cases s with ⟨-, hs⟩ | ⟨-, -, hs⟩ | ⟨i, -, -, -, hs⟩
  · exact ⟨_, hs⟩
  · exact ⟨_, hs⟩
  · exact ⟨_, hs.trans (exec_eq i s.incPc)⟩

theorem run_of_halted {s : State} (hr : s.runState = .halted) (n : Nat) : run n s = .next s := by
  cases n with
  | zero => rfl
  | succ n => simp [run, hr]

/-- `run` is a step and then the rest of the run, in both run states. -/
theorem run_succ {s t : State} (h : step s = .next t) (n : Nat) : run (n + 1) s = run n t := by
  cases hr : s.runState with
  | running => simp [run, hr, h]
  | halted =>
    cases h.symm.trans (step_of_halted hr)
    rw [run_of_halted hr, run_of_halted hr]

theorem core_run_succ {s t : State} (h : step s = .next t) (n : Nat) : core.run (n + 1) s = core.run n t := by
  have hcore : core.step s = .next t := h
  simp [Host.Core.run, hcore]

theorem run_eq_core_run (n : Nat) (s : State) : run n s = core.run n s := by
  induction n generalizing s with
  | zero => rfl
  | succ n ih =>
    obtain ⟨t, hstep⟩ := step_answers s
    rw [run_succ hstep, core_run_succ hstep, ih]

theorem run_answers (n : Nat) (s : State) : ∃ t, run n s = .next t := by
  induction n generalizing s with
  | zero => exact ⟨s, rfl⟩
  | succ n ih =>
    obtain ⟨t, hstep⟩ := step_answers s
    rw [run_succ hstep]
    exact ih t

/-- A longer run goes on from where the shorter one ended. -/
theorem run_add {n : Nat} {s t : State} (h : run n s = .next t) (k : Nat) : run (n + k) s = run k t := by
  induction n generalizing s with
  | zero =>
    cases h
    rw [Nat.zero_add]
  | succ n ih =>
    obtain ⟨s', hstep⟩ := step_answers s
    rw [run_succ hstep] at h
    rw [Nat.succ_add, run_succ hstep, ih h]

/-- Settles O45: a longer run goes on from the answer, and from a Halted one it goes no further. -/
theorem runStepsUntilHalted : Obligations.RunStepsUntilHalted := by
  intro n s
  obtain ⟨t, hrun⟩ := run_answers n s
  refine ⟨run_eq_core_run n s, t, hrun, fun hr k => ?_, fun _ => run_add hrun⟩
  rw [run_add hrun, run_of_halted hr]

end Sys2Proof.Machine
end

section
/-! PROOFS. The effective addresses (`41_addressing_modes.md` R100 to R110): every mode's formula, ZeroPageX in page 0, and the
address from the decoded operand. -/

namespace Sys2Proof.Machine

open Sys2Proof.Claims

/-- The sign extension, modulo 65536. -/
theorem sext16_toNat (disp : Byte) : (sext16 disp).toNat = (disp.toInt % 65536).toNat := by
  rw [sext16, BitVec.signExtend, BitVec.toNat_ofInt]
  rfl

/-- The displacement is added to the address after the instruction as a signed number (R110). -/
theorem eaRelative_eq_ofInt (disp : Byte) (s : State) :
    eaRelative disp s = BitVec.ofInt 16 ((s.pc.toNat + 1 + disp.toInt) % 65536) := by
  apply BitVec.eq_of_toNat_eq
  simp only [eaRelative, BitVec.toNat_add, BitVec.toNat_ofNat, BitVec.toNat_ofInt, sext16_toNat]
  omega

theorem pageZero_toNat (n : Nat) : (pageZero n).toNat = n % 256 := by
  rw [pageZero, BitVec.toNat_ofNat]
  omega

/-- Settles O29: every mode by the lemma that gives its address as a number. -/
theorem addressesMeetTheirFormulas : Obligations.AddressesMeetTheirFormulas := fun s =>
  ⟨resolve_immediate s, resolve_zeroPage s, resolve_zeroPageX s, resolve_absolute s, resolve_absoluteX s,
    resolve_absoluteY s, resolve_indirectX s, resolve_indirectY s, eaOf_eq_none_iff.mpr rfl,
    congrArg some (eaRelative_eq_ofInt _ s)⟩

/-- Settles O30: the address is that of the sum in page 0, and the five opcodes are looked up in the table. -/
theorem zeroPageXStaysInPageZero : Obligations.ZeroPageXStaysInPageZero := by
  refine ⟨fun s => ⟨_, resolve_zeroPageX s, pageZero_toNat _, ?_⟩, by decide⟩
  rw [pageZero_toNat]
  exact Nat.mod_lt _ (by decide)

/-- Settles O31: the bytes at PC are those the operand was decoded from. -/
theorem operandAddressIsResolvedAddress : Obligations.OperandAddressIsResolvedAddress :=
  fun _ _ => instrAddress_of_bytesAtPc

end Sys2Proof.Machine
end

section
/-! PROOFS. From an instruction's execution to the step with its bytes at PC (`40_fetch_decode_execute.md` R80, R82), for
every family: the bytes are decoded, and the effect that `exec` answers past the opcode is read as one on the state before. -/

namespace Sys2Proof.Machine

open Sys2Proof.Claims

/-- Bytes at PC that decode to an instruction are that instruction's encoding, so the step executes it past its opcode. -/
theorem answers_step_of_bytes {s : State} {bytes : List Byte} {i : Instr} {P Q : State → Prop} (hr : s.runState = .running)
    (hdec : decode bytes = .ok (i, [])) (hexec : Answers (exec i s.incPc) P) (himp : ∀ t, P t → Q t)
    (hb : BytesAtPc s bytes) : Answers (step s) Q := by
  rw [eq_encode_append_of_decode hdec, List.append_nil] at hb
  obtain ⟨t, ht, hP⟩ := hexec
  exact ⟨t, (step_of_bytesAtPc hr hb).trans ht, himp t hP⟩

/-- PC past the opcode and then the operand bytes is PC past the whole instruction (R86). -/
theorem State.incPc_pc_add (s : State) (n : Word) : s.incPc.pc + n = s.pc + (1#16 + n) := BitVec.add_assoc s.pc 1#16 n

/-- The load rule from the two bits it writes (`10_state.md` R17). -/
theorem zeroNegativeOf_of_bits {v : Byte} {t : State} (hzero : t.p[1] = (v == 0#8)) (hnegative : t.p[7] = v[7]) :
    ZeroNegativeOf v t :=
  ⟨hzero.trans (beq_zero_eq_decide v), hnegative.trans (getLsbD_seven_eq_decide v)⟩

end Sys2Proof.Machine
end

section
/-! PROOFS. LDA and STA (`42_load_store.md`): the effect of each family's rule with its frame, once for all its modes, then
the forms, by `exec` and by their bytes at PC. -/

namespace Sys2Proof.Machine

open Sys2Proof.Claims

/-! ### LDA -/

theorem ldaEffect_ldaValue (m : Byte) (mode : Mode) (s : State) :
    LdaEffect m (s.pc + BitVec.ofNat 16 mode.len) s ((ldaValue m s).addLen mode) where
  a := rfl
  zeroNegative := zeroNegativeOf_of_bits (by simp) (by simp)
  otherFlags i hi hkept := by
    obtain ⟨h1, h7⟩ : i ≠ 1 ∧ i ≠ 7 := by simpa using hkept
    simp [hi, h1, h7]
  x := rfl
  y := rfl
  pc := rfl
  store _ := rfl
  control := ⟨rfl, rfl⟩

/-- Every LDA is the load of a byte and then PC past the operand (R120). -/
theorem finish_ldaValue_answers (m : Byte) (mode : Mode) (s : State) :
    Answers (finish mode (ldaValue m s)) (LdaEffect m (s.pc + BitVec.ofNat 16 mode.len) s) :=
  ⟨_, rfl, ldaEffect_ldaValue m mode s⟩

/-- Settles O13: each form by its mode. -/
theorem ldaCompletes : Obligations.LdaCompletes := fun s =>
  ⟨fun _ => finish_ldaValue_answers _ .immediate s, fun _ => finish_ldaValue_answers _ .zeroPage s,
    fun _ => finish_ldaValue_answers _ .zeroPageX s, fun _ => finish_ldaValue_answers _ .absolute s,
    fun _ => finish_ldaValue_answers _ .absoluteX s, fun _ => finish_ldaValue_answers _ .absoluteY s,
    fun _ => finish_ldaValue_answers _ .indirectX s, fun _ => finish_ldaValue_answers _ .indirectY s⟩

/-- The step of an LDA from its execution past the opcode, with the data byte as the rule's formula gives it. -/
theorem lda_step_of_exec {s : State} {bytes : List Byte} {i : Instr} {m m' : Byte} {n : Word} (hr : s.runState = .running)
    (hdec : decode bytes = .ok (i, [])) (hexec : Answers (exec i s.incPc) (LdaEffect m (s.incPc.pc + n) s.incPc))
    (hm : m = m') : BytesAtPc s bytes → Answers (step s) (LdaEffect m' (s.pc + (1#16 + n)) s) := by
  subst hm
  exact answers_step_of_bytes hr hdec hexec fun t h => { h with pc := h.pc.trans (s.incPc_pc_add n) }

/-- Settles O19: each form from its execution, its address being the formula's. -/
theorem ldaSteps : Obligations.LdaSteps := by
  intro s nn ll hh hr
  obtain ⟨himm, hzp, hzpx, habs, habsX, habsY, hindX, hindY⟩ := ldaCompletes s.incPc
  exact ⟨lda_step_of_exec hr rfl (himm nn) rfl,
    lda_step_of_exec hr rfl (hzp nn) (congrArg s.mem.read (zext16_eq_pageZero nn)),
    lda_step_of_exec hr rfl (hzpx nn) (congrArg s.mem.read (zext16_add_eq_pageZero nn s.x)),
    lda_step_of_exec hr rfl (habs _) (congrArg s.mem.read (wordOf_eq_absolute hh ll)),
    lda_step_of_exec hr rfl (habsX _) (congrArg s.mem.read (wordOf_add_zext16_eq_absolute hh ll s.x)),
    lda_step_of_exec hr rfl (habsY _) (congrArg s.mem.read (wordOf_add_zext16_eq_absolute hh ll s.y)),
    lda_step_of_exec hr rfl (hindX nn) (congrArg s.mem.read (eaIndirectX_eq_indirectX nn s)),
    lda_step_of_exec hr rfl (hindY nn) (congrArg s.mem.read (eaIndirectY_eq_indirectY nn s))⟩

/-! ### STA -/

theorem staEffect_staTo (ea : Word) (mode : Mode) (s : State) :
    StaEffect ea (s.pc + BitVec.ofNat 16 mode.len) s ((staTo ea s).addLen mode) where
  store b := s.mem.read_write ea b s.a
  a := rfl
  x := rfl
  y := rfl
  p := rfl
  pc := rfl
  control := ⟨rfl, rfl⟩

/-- Every STA is the store of A at an address and then PC past the operand (R130). -/
theorem finish_staTo_answers (ea : Word) (mode : Mode) (s : State) :
    Answers (finish mode (staTo ea s)) (StaEffect ea (s.pc + BitVec.ofNat 16 mode.len) s) :=
  ⟨_, rfl, staEffect_staTo ea mode s⟩

/-- Settles O14: each form by its mode. -/
theorem staCompletes : Obligations.StaCompletes := fun s =>
  ⟨fun _ => finish_staTo_answers _ .zeroPage s, fun _ => finish_staTo_answers _ .zeroPageX s,
    fun _ => finish_staTo_answers _ .absolute s, fun _ => finish_staTo_answers _ .absoluteX s,
    fun _ => finish_staTo_answers _ .absoluteY s, fun _ => finish_staTo_answers _ .indirectX s,
    fun _ => finish_staTo_answers _ .indirectY s⟩

/-- The step of an STA from its execution past the opcode, with the address as the rule's formula gives it: a formula over
the state before the store, so an indirect form's pointer is the old one. -/
theorem sta_step_of_exec {s : State} {bytes : List Byte} {i : Instr} {ea ea' n : Word} (hr : s.runState = .running)
    (hdec : decode bytes = .ok (i, [])) (hexec : Answers (exec i s.incPc) (StaEffect ea (s.incPc.pc + n) s.incPc))
    (hea : ea = ea') : BytesAtPc s bytes → Answers (step s) (StaEffect ea' (s.pc + (1#16 + n)) s) := by
  subst hea
  exact answers_step_of_bytes hr hdec hexec fun t h => { h with pc := h.pc.trans (s.incPc_pc_add n) }

/-- Settles O20: each form from its execution, its address being the formula's. -/
theorem staSteps : Obligations.StaSteps := by
  intro s nn ll hh hr
  obtain ⟨hzp, hzpx, habs, habsX, habsY, hindX, hindY⟩ := staCompletes s.incPc
  exact ⟨sta_step_of_exec hr rfl (hzp nn) (zext16_eq_pageZero nn),
    sta_step_of_exec hr rfl (hzpx nn) (zext16_add_eq_pageZero nn s.x),
    sta_step_of_exec hr rfl (habs _) (wordOf_eq_absolute hh ll),
    sta_step_of_exec hr rfl (habsX _) (wordOf_add_zext16_eq_absolute hh ll s.x),
    sta_step_of_exec hr rfl (habsY _) (wordOf_add_zext16_eq_absolute hh ll s.y),
    sta_step_of_exec hr rfl (hindX nn) (eaIndirectX_eq_indirectX nn s),
    sta_step_of_exec hr rfl (hindY nn) (eaIndirectY_eq_indirectY nn s)⟩

end Sys2Proof.Machine
end

section
/-! PROOFS. ADC and AND (`43_add_and.md`): the effect of each family's rule with its frame, once for all its modes, then the
forms, by `exec` and by their bytes at PC; and ADC's Overflow as signed overflow. -/

namespace Sys2Proof.Machine

open Sys2Proof.Claims

/-! ### The Overflow predicate -/

/-- The predicate as R140 quotes it: the operands share a sign that the result does not have. -/
theorem aluOverflow_adc_eq_decide (a m : Byte) (c : Bool) : aluOverflow .adc a m c =
    decide (a.getLsbD 7 = m.getLsbD 7 ∧ (aluResult .adc a m c).getLsbD 7 ≠ a.getLsbD 7) := by
  rw [Bool.eq_iff_iff]
  simp [aluOverflow]

/-- Operands of different signs never overflow; those of one sign do exactly when the result has the other (R140). -/
theorem aluOverflow_adc_eq_signedOverflow (a m : Byte) (c : Bool) : aluOverflow .adc a m c =
    decide (a.toInt + m.toInt + c.toNat < -128 ∨ a.toInt + m.toInt + c.toNat > 127) := by
  have ha := a.isLt
  have hm := m.isLt
  have hc := Bool.toNat_le c
  rw [aluOverflow_adc_eq_decide, decide_eq_decide]
  simp only [getLsbD_seven_eq_decide, ne_eq, decide_eq_decide, aluResult_adc_toNat, BitVec.toInt_eq_toNat_cond]
  split <;> split <;> omega

/-- Two bits agree and a third differs from them exactly when it differs from each of the two. -/
theorem beq_and_bne_eq_xor_and_xor : ∀ a m r : Bool, (a == m && r != a) = ((a ^^ r) && (m ^^ r)) := by decide

/-- Settles O28: as signed overflow, and from the truth table of the three bits 7. -/
theorem adcOverflowIsSignedOverflow : Obligations.AdcOverflowIsSignedOverflow := by
  intro a m c
  refine ⟨aluOverflow_adc_eq_signedOverflow a m c, ?_⟩
  rw [BitVec.getLsbD_and, BitVec.getLsbD_xor, BitVec.getLsbD_xor]
  exact beq_and_bne_eq_xor_and_xor _ _ _

/-! ### A family's step -/

/-- The step of an instruction that works on a data byte, from its execution past the opcode, for an effect that says the
same of the state before the opcode fetch. -/
theorem answers_step_of_exec {s : State} {E : Byte → Word → State → State → Prop} (hr : s.runState = .running)
    (hE : ∀ {m pc t}, E m pc s.incPc t → E m pc s t) {bytes : List Byte} {i : Instr} {m : Byte} {n : Word}
    (hdec : decode bytes = .ok (i, [])) (hexec : Answers (exec i s.incPc) (E m (s.incPc.pc + n) s.incPc)) :
    BytesAtPc s bytes → Answers (step s) (E m (s.pc + (1#16 + n)) s) := by
  rw [s.incPc_pc_add] at hexec
  exact answers_step_of_bytes hr hdec hexec fun _ => hE

/-! ### ADC -/

theorem adcEffect_adcValue (m : Byte) (mode : Mode) (s : State) :
    AdcEffect m (s.pc + BitVec.ofNat 16 mode.len) s ((adcValue m s).addLen mode) where
  a := aluResult_adc_toNat s.a m s.p[0]
  carry := by simp
  overflow := by simpa using aluOverflow_adc_eq_decide s.a m s.p[0]
  zeroNegative := zeroNegativeOf_of_bits (by simp) (by simp)
  otherFlags i hi hkept := by
    obtain ⟨h0, h1, h6, h7⟩ : i ≠ 0 ∧ i ≠ 1 ∧ i ≠ 6 ∧ i ≠ 7 := by simpa using hkept
    simp [hi, h0, h1, h6, h7]
  x := rfl
  y := rfl
  pc := rfl
  store _ := rfl
  control := ⟨rfl, rfl⟩

/-- Every ADC is the sum with a byte and then PC past the operand (R140). -/
theorem finish_adcValue_answers (m : Byte) (mode : Mode) (s : State) :
    Answers (finish mode (adcValue m s)) (AdcEffect m (s.pc + BitVec.ofNat 16 mode.len) s) :=
  ⟨_, rfl, adcEffect_adcValue m mode s⟩

/-- Settles O15: each form by its mode. -/
theorem adcCompletes : Obligations.AdcCompletes := fun s =>
  ⟨fun _ => finish_adcValue_answers _ .immediate s, fun _ => finish_adcValue_answers _ .zeroPage s,
    fun _ => finish_adcValue_answers _ .zeroPageX s, fun _ => finish_adcValue_answers _ .absolute s,
    fun _ => finish_adcValue_answers _ .absoluteX s, fun _ => finish_adcValue_answers _ .absoluteY s,
    fun _ => finish_adcValue_answers _ .indirectX s, fun _ => finish_adcValue_answers _ .indirectY s⟩

/-- The opcode fetch moves PC alone, so ADC's effect past it is that on the state before. -/
theorem adcEffect_of_incPc {m : Byte} {pc : Word} {s t : State} (h : AdcEffect m pc s.incPc t) : AdcEffect m pc s t :=
  { h with }

/-- Settles O21: each form from its execution, the formula's address being the model's. -/
theorem adcSteps : Obligations.AdcSteps := by
  intro s nn ll hh hr
  simp only [← zext16_eq_pageZero, ← zext16_add_eq_pageZero, ← wordOf_eq_absolute, ← wordOf_add_zext16_eq_absolute,
    ← eaIndirectX_eq_indirectX, ← eaIndirectY_eq_indirectY]
  obtain ⟨himm, hzp, hzpx, habs, habsX, habsY, hindX, hindY⟩ := adcCompletes s.incPc
  have hstep {bytes i m n} := @answers_step_of_exec s AdcEffect hr adcEffect_of_incPc bytes i m n
  exact ⟨hstep rfl (himm nn), hstep rfl (hzp nn), hstep rfl (hzpx nn), hstep rfl (habs _), hstep rfl (habsX _),
    hstep rfl (habsY _), hstep rfl (hindX nn), hstep rfl (hindY nn)⟩

/-! ### AND -/

theorem andEffect_andValue (m : Byte) (mode : Mode) (s : State) :
    AndEffect m (s.pc + BitVec.ofNat 16 mode.len) s ((andValue m s).addLen mode) where
  a _ _ := BitVec.getLsbD_and
  zeroNegative := zeroNegativeOf_of_bits (by simp) (by simp)
  otherFlags i hi hkept := by
    obtain ⟨h1, h7⟩ : i ≠ 1 ∧ i ≠ 7 := by simpa using hkept
    simp [hi, h1, h7]
  x := rfl
  y := rfl
  pc := rfl
  store _ := rfl
  control := ⟨rfl, rfl⟩

/-- Every AND is the conjunction with a byte and then PC past the operand (R150). -/
theorem finish_andValue_answers (m : Byte) (mode : Mode) (s : State) :
    Answers (finish mode (andValue m s)) (AndEffect m (s.pc + BitVec.ofNat 16 mode.len) s) :=
  ⟨_, rfl, andEffect_andValue m mode s⟩

/-- Settles O16: each form by its mode. -/
theorem andCompletes : Obligations.AndCompletes := fun s =>
  ⟨fun _ => finish_andValue_answers _ .immediate s, fun _ => finish_andValue_answers _ .zeroPage s,
    fun _ => finish_andValue_answers _ .zeroPageX s, fun _ => finish_andValue_answers _ .absolute s,
    fun _ => finish_andValue_answers _ .absoluteX s, fun _ => finish_andValue_answers _ .absoluteY s,
    fun _ => finish_andValue_answers _ .indirectX s, fun _ => finish_andValue_answers _ .indirectY s⟩

/-- The opcode fetch moves PC alone, so AND's effect past it is that on the state before. -/
theorem andEffect_of_incPc {m : Byte} {pc : Word} {s t : State} (h : AndEffect m pc s.incPc t) : AndEffect m pc s t :=
  { h with }

/-- Settles O22: each form from its execution, the formula's address being the model's. -/
theorem andSteps : Obligations.AndSteps := by
  intro s nn ll hh hr
  simp only [← zext16_eq_pageZero, ← zext16_add_eq_pageZero, ← wordOf_eq_absolute, ← wordOf_add_zext16_eq_absolute,
    ← eaIndirectX_eq_indirectX, ← eaIndirectY_eq_indirectY]
  obtain ⟨himm, hzp, hzpx, habs, habsX, habsY, hindX, hindY⟩ := andCompletes s.incPc
  have hstep {bytes i m n} := @answers_step_of_exec s AndEffect hr andEffect_of_incPc bytes i m n
  exact ⟨hstep rfl (himm nn), hstep rfl (hzp nn), hstep rfl (hzpx nn), hstep rfl (habs _), hstep rfl (habsX _),
    hstep rfl (habsY _), hstep rfl (hindX nn), hstep rfl (hindY nn)⟩

end Sys2Proof.Machine
end

section
/-! PROOFS. ASL (`44_shift.md`): the effect of the accumulator form and of the memory forms with their frame, the latter once
for all its modes, then the forms, by `exec` and by their bytes at PC. -/

namespace Sys2Proof.Machine

open Sys2Proof.Claims

/-! ### The effect -/

theorem aslAccumulatorEffect_aslA (s : State) : AslAccumulatorEffect s.pc s ((aslA s).addLen .implied) where
  a := by simp [shiftLeft_one_eq_ofNat]
  carry := by simp
  otherFlags i hi hkept := by
    have h0 : i ≠ 0 := by simpa using hkept
    simp [hi, h0]
  x := rfl
  y := rfl
  pc := BitVec.add_zero s.pc
  store _ := rfl
  control := ⟨rfl, rfl⟩

theorem aslMemoryEffect_aslAt (ea : Word) (mode : Mode) (s : State) :
    AslMemoryEffect ea (s.pc + BitVec.ofNat 16 mode.len) s ((aslAt ea s).addLen mode) where
  store b := by
    rw [← shiftLeft_one_eq_ofNat]
    exact s.mem.read_write ea b _
  carry := by simp
  otherFlags i hi hkept := by
    have h0 : i ≠ 0 := by simpa using hkept
    simp [hi, h0]
  a := rfl
  x := rfl
  y := rfl
  pc := rfl
  control := ⟨rfl, rfl⟩

/-- Every ASL of a memory byte is the shift at an address and then PC past the operand (R170). -/
theorem finish_aslAt_answers (ea : Word) (mode : Mode) (s : State) :
    Answers (finish mode (aslAt ea s)) (AslMemoryEffect ea (s.pc + BitVec.ofNat 16 mode.len) s) :=
  ⟨_, rfl, aslMemoryEffect_aslAt ea mode s⟩

/-- Settles O17: the shift of A, and each memory form by its mode. -/
theorem aslCompletes : Obligations.AslCompletes := fun s =>
  ⟨⟨_, rfl, aslAccumulatorEffect_aslA s⟩, fun _ => finish_aslAt_answers _ .zeroPage s,
    fun _ => finish_aslAt_answers _ .zeroPageX s, fun _ => finish_aslAt_answers _ .absolute s,
    fun _ => finish_aslAt_answers _ .absoluteX s⟩

/-! ### The step -/

variable {s : State}

/-- A byte at PC whose entry is of the Implied mode is all that the step of a Running core reads (`20_memory.md` R50). -/
theorem stepAccesses_of_impliedByte {op : Byte} (hr : s.runState = .running)
    (hmode : (lookup op).map (·.mode) = some .implied) (hb : BytesAtPc s [op]) : stepAccesses s = [.read s.pc] := by
  have hop : s.mem.read s.pc = op := List.head_eq_of_cons_eq hb
  exact stepAccesses_of_implied hr (hop ▸ hmode)

/-- The step of an ASL of a memory byte from its execution past the opcode, for the same address. -/
theorem aslMemory_step_of_exec {bytes : List Byte} {i : Instr} {ea n : Word} (hr : s.runState = .running)
    (hdec : decode bytes = .ok (i, [])) (hexec : Answers (exec i s.incPc) (AslMemoryEffect ea (s.incPc.pc + n) s.incPc)) :
    BytesAtPc s bytes → Answers (step s) (AslMemoryEffect ea (s.pc + (1#16 + n)) s) :=
  answers_step_of_bytes hr hdec hexec fun _ h => { h with pc := h.pc.trans (s.incPc_pc_add n) }

/-- Settles O23: each form from its execution, the formula's address being the model's; the accumulator form, of the Implied
mode, makes no data access. -/
theorem aslSteps : Obligations.AslSteps := by
  intro s nn ll hh hr
  simp only [← zext16_eq_pageZero, ← zext16_add_eq_pageZero, ← wordOf_eq_absolute, ← wordOf_add_zext16_eq_absolute]
  obtain ⟨hacc, hzp, hzpx, habs, habsX⟩ := aslCompletes s.incPc
  have haccStep : BytesAtPc s [0x0A#8] → Answers (step s) (AslAccumulatorEffect (s.pc + 1#16) s) :=
    answers_step_of_bytes hr rfl hacc fun _ h => { h with }
  exact ⟨fun hb => ⟨haccStep hb, stepAccesses_of_impliedByte hr rfl hb⟩, aslMemory_step_of_exec hr rfl (hzp nn),
    aslMemory_step_of_exec hr rfl (hzpx nn), aslMemory_step_of_exec hr rfl (habs _),
    aslMemory_step_of_exec hr rfl (habsX _)⟩

end Sys2Proof.Machine
end

section
/-! PROOFS. TAX and INX (`45_transfer_increment.md`), SEI and SED (`46_flag_set.md`) and BRK (`47_halt.md`): the effect of each
rule with its frame, then the forms by `exec`, and TAX and INX by their byte at PC. -/

namespace Sys2Proof.Machine

open Sys2Proof.Claims

/-! ### The effects -/

/-- X from the arithmetic unit with the load rule of the result, whatever the function; Carry and Overflow are not taken. -/
theorem xEffect_toX_alu (fn : AluFn) (a b : Byte) (cin : Bool) (s : State) :
    XEffect (aluResult fn a b cin).toNat s.pc s (toX (alu fn a b cin) s) where
  x := rfl
  zeroNegative := zeroNegativeOf_of_bits (by simp) (by simp)
  otherFlags i hi hkept := by
    obtain ⟨h1, h7⟩ : i ≠ 1 ∧ i ≠ 7 := by simpa using hkept
    simp [hi, h1, h7]
  a := rfl
  y := rfl
  pc := rfl
  store _ := rfl
  control := ⟨rfl, rfl⟩

theorem flagSetEffect_setFlag (f : Flag) (s : State) : FlagSetEffect f.bit s.pc s (s.setP (setFlag s.p f true)) where
  flag := (getLsbD_setFlag s.p f true f.bit f.bit_lt).trans (if_pos rfl)
  otherFlags i hi hkept := (getLsbD_setFlag s.p f true i hi).trans (if_neg (List.ne_of_not_mem_cons hkept))
  a := rfl
  x := rfl
  y := rfl
  pc := rfl
  store _ := rfl
  control := ⟨rfl, rfl⟩

theorem haltEffect_setRunState_halted (s : State) : HaltEffect s.pc s (s.setRunState .halted) where
  halted := rfl
  faultCause := rfl
  a := rfl
  x := rfl
  y := rfl
  p := rfl
  pc := rfl
  store _ := rfl

/-! ### The forms -/

/-- The Implied mode has no operand for PC to move past, so the state an instruction's effect leaves is the one answered. -/
theorem finish_implied_answers {s : State} {P : State → Prop} (h : P s) : Answers (finish .implied s) P :=
  ⟨s, by rw [finish_eq, State.addLen_implied], h⟩

theorem exec_tax_answers (s : State) : Answers (exec .tax s) (XEffect s.a.toNat s.pc s) :=
  finish_implied_answers (xEffect_toX_alu .pass s.a s.a false s)

theorem exec_inx_answers (s : State) : Answers (exec .inx s) (XEffect ((s.x.toNat + 1) % 256) s.pc s) := by
  have hsum : (s.x + 1#8).toNat = (s.x.toNat + 1) % 256 := BitVec.toNat_add s.x 1#8
  rw [← hsum]
  exact finish_implied_answers (xEffect_toX_alu .inc s.a s.x false s)

/-- Settles O18: each form by the effect of its rule. -/
theorem impliedFormsComplete : Obligations.ImpliedFormsComplete := fun s =>
  ⟨exec_tax_answers s, exec_inx_answers s, finish_implied_answers (flagSetEffect_setFlag .I s),
    finish_implied_answers (flagSetEffect_setFlag .D s), ⟨_, rfl, haltEffect_setRunState_halted s⟩⟩

/-! ### The step -/

variable {s : State}

/-- The step of a one-byte instruction from its execution past the opcode: the opcode fetch is its one access. -/
theorem implied_step_of_exec {E : Word → State → State → Prop} (hr : s.runState = .running)
    (hE : ∀ {pc t}, E pc s.incPc t → E pc s t) {op : Byte} {i : Instr} (hdec : decode [op] = .ok (i, []))
    (hmode : (lookup op).map (·.mode) = some .implied) (hexec : Answers (exec i s.incPc) (E s.incPc.pc s.incPc))
    (hb : BytesAtPc s [op]) : Answers (step s) (E (s.pc + 1#16) s) ∧ stepAccesses s = [.read s.pc] :=
  ⟨answers_step_of_bytes hr hdec hexec (fun _ => hE) hb, stepAccesses_of_impliedByte hr hmode hb⟩

/-- The opcode fetch moves PC alone, so the effect of TAX or INX past it is that on the state before. -/
theorem xEffect_of_incPc {n : Nat} {pc : Word} {t : State} (h : XEffect n pc s.incPc t) : XEffect n pc s t :=
  { h with }

/-- Settles O24: each from its execution past the opcode. -/
theorem transferAndIncrementSteps : Obligations.TransferAndIncrementSteps := fun s hr =>
  ⟨implied_step_of_exec hr xEffect_of_incPc rfl rfl (exec_tax_answers s.incPc),
    implied_step_of_exec hr xEffect_of_incPc rfl rfl (exec_inx_answers s.incPc)⟩

end Sys2Proof.Machine
end

section
/-! PROOFS. SEI and SED by their byte at PC (`46_flag_set.md` R185, R186). -/

namespace Sys2Proof.Machine

open Sys2Proof.Claims

variable {s : State}

/-- The opcode fetch moves PC alone, so the effect of SEI or SED past it is that on the state before. -/
theorem flagSetEffect_of_incPc {bit : Nat} {pc : Word} {t : State} (h : FlagSetEffect bit pc s.incPc t) :
    FlagSetEffect bit pc s t :=
  { h with }

/-- Settles O25: each from its execution past the opcode. -/
theorem flagSetSteps : Obligations.FlagSetSteps := by
  intro s hr
  obtain ⟨-, -, hsei, hsed, -⟩ := impliedFormsComplete s.incPc
  exact ⟨implied_step_of_exec hr flagSetEffect_of_incPc rfl rfl hsei,
    implied_step_of_exec hr flagSetEffect_of_incPc rfl rfl hsed⟩

end Sys2Proof.Machine
end

section
/-! PROOFS. BRK by its byte at PC (`47_halt.md` R190), and the step request after it (`40_fetch_decode_execute.md` R81). -/

namespace Sys2Proof.Machine

open Sys2Proof.Claims

variable {s : State}

/-- The opcode fetch moves PC alone, so the halt past it is that of the state before. -/
theorem haltEffect_of_incPc {pc : Word} {t : State} (h : HaltEffect pc s.incPc t) : HaltEffect pc s t :=
  { h with }

/-- Settles O26: BRK from its execution past the opcode; the state it answers is Halted, and a Halted core's step changes
nothing. -/
theorem brkSteps : Obligations.BrkSteps := by
  intro s hr hb
  obtain ⟨-, -, -, -, hexec⟩ := impliedFormsComplete s.incPc
  obtain ⟨⟨t, hstep, heffect⟩, haccesses⟩ := implied_step_of_exec hr haltEffect_of_incPc rfl rfl hexec hb
  refine ⟨⟨t, hstep, heffect⟩, haccesses, fun t' hstep' => ?_⟩
  cases hstep.symm.trans hstep'
  exact haltedStepChangesNothing t heffect.halted

end Sys2Proof.Machine
end

section
/-! PROOFS. The one exception (`60_exceptions.md` R201, R204) and the Halted state it leaves (R210). -/

namespace Sys2Proof.Machine

open Sys2Proof.Claims

/-- The fault is latched and the core halts; the opcode fetch before it moved PC alone (`40_fetch_decode_execute.md` R85). -/
theorem faultEffect_takeUnimplementedOpcode_incPc (s : State) :
    FaultEffect (s.pc + 1#16) s (takeUnimplementedOpcode s.incPc) where
  faultCause := rfl
  halted := rfl
  a := rfl
  x := rfl
  y := rfl
  p := rfl
  pc := rfl
  store _ := rfl

/-- Settles O8: the step takes the exception, and the byte before its PC is the one at the PC before the step. -/
theorem unimplementedOpcodeIsTaken : Obligations.UnimplementedOpcodeIsTaken := by
  intro s hr hop
  have hl : lookup (s.mem.read s.pc) = none := lookup_eq_none_iff.mpr hop
  have hstep := step_of_unimplemented hr hl
  have heffect := faultEffect_takeUnimplementedOpcode_incPc s
  refine ⟨⟨_, hstep, heffect⟩, stepAccesses_of_unimplemented hr hl, fun t ht => ?_⟩
  cases hstep.symm.trans ht
  have hpc : (takeUnimplementedOpcode s.incPc).pc - 1#16 = s.pc := by
    rw [heffect.pc, BitVec.add_sub_cancel]
  refine ⟨hpc, ?_⟩
  rwa [hpc, heffect.store]

theorem exec_faultCause_answers (i : Instr) (s : State) : Answers (exec i s) fun t => t.faultCause = s.faultCause :=
  ⟨_, exec_eq i s, effect_faultCause i s⟩

/-- Settles O10: of the three things a step can do, only the exception writes the latch. -/
theorem noOtherException : Obligations.NoOtherException := by
  refine ⟨exec_faultCause_answers, fun s => ?_⟩
  rcases step_cases s with ⟨-, hstep⟩ | ⟨hr, hl, hstep⟩ | ⟨i, -, -, -, hstep⟩
  · exact ⟨s, hstep, .inl rfl⟩
  · exact ⟨_, hstep, .inr ⟨takeUnimplementedOpcode_faultCause _, hr, lookup_eq_none_iff.mp hl⟩⟩
  · obtain ⟨t, hexec, hcause⟩ := exec_faultCause_answers i s.incPc
    exact ⟨t, hstep.trans hexec, .inl hcause⟩

/-- Settles O44: the host's run is the model's, which stops in a Halted state. -/
theorem haltedCoreStaysAsItIs : Obligations.HaltedCoreStaysAsItIs :=
  fun k s hr => (run_eq_core_run k s).symm.trans (run_of_halted hr k)

end Sys2Proof.Machine
end

section
/-! PROOFS. Reset and its request (`70_reset_and_hazards.md` R231 to R233, `60_exceptions.md` R207). -/

namespace Sys2Proof.Machine

/-- Settles O46, from the laws of `resetCore`, PC as the number its two bytes make. -/
theorem resetMeetsItsProcedure : Obligations.ResetMeetsItsProcedure := by
  intro s
  refine ⟨resetCore_a s, resetCore_x s, resetCore_y s, resetCore_p s, ?_, resetCore_faultCause s, resetCore_runState s,
    fun b => congrArg (·.read b) (resetCore_mem s), rfl⟩
  rw [resetCore_pc, read16_toNat]

/-- Reset depends on the store alone: it keeps it, and reads the vector in it. -/
theorem resetCore_eq_of_mem_eq {s t : State} (h : t.mem = s.mem) : resetCore t = resetCore s := by
  rw [resetCore, resetCore, h]

/-- Settles O47: the first reset keeps the store. -/
theorem resetTwiceIsResetOnce : Obligations.ResetTwiceIsResetOnce :=
  fun s => resetCore_eq_of_mem_eq (resetCore_mem s)

/-- Settles O49: `serve` on each of the four combinations of requests. -/
theorem resetRequestComesFirst : Obligations.ResetRequestComesFirst :=
  fun _ => ⟨rfl, rfl, rfl, rfl⟩

end Sys2Proof.Machine
end

section
/-! PROOFS. The loader (`70_reset_and_hazards.md` R236, R237): which loads are accepted, every byte of the store after one,
and the reset that follows it. -/

namespace Sys2Proof.Machine

open Sys2Proof.Claims

variable {bytes : List Byte} {s : State}

theorem load_of_length_le (hr : s.runState = .halted) (hlen : bytes.length ≤ Config.maxProgram) :
    load bytes s = .next (s.setMem (loadedStore bytes s.mem)) := by
  simp [load, hr, Nat.not_lt.mpr hlen]

theorem load_of_tooLarge (hr : s.runState = .halted) (hlen : Config.maxProgram < bytes.length) :
    load bytes s = .refused (.programTooLarge bytes.length) := by
  simp [load, hr, hlen]

/-- A program that ends within the 64 KiB, read by address. -/
theorem Memory.read_writeBytes_loadBase (m : Memory) (b : Word) (hlen : bytes.length ≤ 32768) :
    (m.writeBytes Config.loadBase bytes).read b =
      if 0x8000 ≤ b.toNat ∧ b.toNat < 0x8000 + bytes.length then bytes.getD (b.toNat - 0x8000) 0#8
      else m.read b := by
  rw [Memory.read_writeBytes _ _ _ _ (by omega)]
  have hb : b.toNat < 65536 := b.isLt
  have hoffset : (b - Config.loadBase).toNat = (65536 - 0x8000 + b.toNat) % 65536 := BitVec.toNat_sub b Config.loadBase
  by_cases hin : 0x8000 ≤ b.toNat ∧ b.toNat < 0x8000 + bytes.length
  · have hindex : (b - Config.loadBase).toNat = b.toNat - 0x8000 := by omega
    rw [if_pos hin, if_pos (by omega), hindex]
    rfl
  · rw [if_neg hin, if_neg (by omega)]

/-- Every byte after a load: the vector, which is written last, over the program, over the store before. -/
theorem read_loadedStore (m : Memory) (b : Word) (hlen : bytes.length ≤ 32768) :
    (loadedStore bytes m).read b =
      if b = 0xFFFC#16 then 0x00#8
      else if b = 0xFFFD#16 then 0x80#8
      else if 0x8000 ≤ b.toNat ∧ b.toNat < 0x8000 + bytes.length then bytes.getD (b.toNat - 0x8000) 0#8
      else m.read b := by
  rw [← Memory.read_writeBytes_loadBase m b hlen, loadedStore, Memory.read_write, Memory.read_write]
  by_cases hlo : b = 0xFFFC#16
  · subst hlo
    rfl
  · rw [if_neg hlo, if_neg hlo]
    rfl

/-- Settles O51: an accepted load changes the store alone, read here byte by byte; a longer program is refused. -/
theorem loadMeetsItsInterface : Obligations.LoadMeetsItsInterface := by
  intro bytes s hr
  refine ⟨fun hlen => ?_, load_of_tooLarge hr⟩
  exact ⟨_, load_of_length_le hr hlen, sameButStore_setMem s _, fun b => read_loadedStore s.mem b hlen⟩

/-- The vector a load writes is the address of the program, whatever the program is. -/
theorem read16_resetVector_loadedStore (bytes : List Byte) (m : Memory) :
    (loadedStore bytes m).read16 Config.resetVectorLo Config.resetVectorHi = Config.loadBase := by
  have hne : Config.resetVectorLo ≠ Config.resetVectorHi := by decide
  rw [Memory.read16, loadedStore, Memory.read_write_same, Memory.read_write_other _ _ hne, Memory.read_write_same,
    wordOf_bytes]

/-- Settles O52: the reset takes PC from the vector just written. -/
theorem loadThenResetStartsAtTheProgram : Obligations.LoadThenResetStartsAtTheProgram :=
  fun bytes s hr hlen =>
    ⟨_, load_of_length_le hr hlen, read16_resetVector_loadedStore bytes s.mem, resetCore_runState _⟩

end Sys2Proof.Machine
end
